-- ==== Sys2Proof/Word.lean ====
section
/-! DEFINITION. The plain data of the core: bytes, codes, bit sequences, dictionary entries, the policy switch. -/

namespace Sys2Proof

/-- A source byte or a sink byte (`BYTE_BITS` = 8, 00_scope.md R6). -/
abbrev Byte := BitVec 8

/-- A code as the dictionary and its counter hold it (`CODE_BITS` = 32, 00_scope.md R7, 10_state.md R27). -/
abbrev Code := BitVec 32

/-- A key of the dictionary: a byte sequence, compared by exact content (10_state.md R26). -/
abbrev Key := List Byte

/-- A bit sequence in stream order, oldest bit first (00_scope.md R8). -/
abbrev Bits := List Bool

/-- One dictionary entry (10_state.md R26, 20_memory.md R53). -/
structure Entry where
  key  : Key
  code : Code
deriving DecidableEq, Repr, Inhabited

/-- The dictionary store: a finite map, held as its entries in rising order of their codes (log entry 18). -/
abbrev Dict := List Entry

/-- `cfg.policy` (10_state.md R22): bit 0 is `BOUNDED_RESET`, bit 1 is `GROWTH_ONLY`. -/
inductive Policy where
  | boundedReset
  | growthOnly
deriving DecidableEq, Repr, Inhabited

end Sys2Proof
end

