-- ==== Sys2Proof/Syntax.lean ====
section
/-! DEFINITION. The instructions: the four commands and the seven component operations of spec/opcode_table.json, and the
two forms in which an instruction reaches the core. -/

namespace Sys2Proof

/-- One constructor per row of spec/opcode_table.json (30_encoding.md R80, R87).
Operands of component operations are values, not bits: the table marks them "not encoded". -/
inductive Instr where
  /-- `BYTE c`: the next source byte (43_driver.md R143, R144, R145). -/
  | byte (c : Byte)
  /-- `EOS`: the source is exhausted (43_driver.md R146, R147). -/
  | eos
  /-- `START mw, pol`: construct a run (43_driver.md R142). -/
  | start (mw : BitVec 6) (pol : Policy)
  /-- `IOERR`: the environment reports a failed read or write (43_driver.md R148). -/
  | ioerr
  /-- `DICT.LOOKUP(key)` (40_dictionary.md R100). -/
  | dictLookup (key : Key)
  /-- `DICT.INSERT(key, code)` (40_dictionary.md R101). -/
  | dictInsert (key : Key) (code : Nat)
  /-- `DICT.RESET()` (40_dictionary.md R102). -/
  | dictReset
  /-- `CW.WIDTH()` (41_code_width.md R115). -/
  | cwWidth
  /-- `CW.RESET_DUE()` (41_code_width.md R116). -/
  | cwResetDue
  /-- `BP.APPEND(code, width)` with its `DRAIN` (42_bit_packer.md R125, R126). -/
  | bpAppend (code : Nat) (width : Nat)
  /-- `BP.FLUSH()` (42_bit_packer.md R127). -/
  | bpFlush
deriving DecidableEq, Repr

/-- The values a component call carries beside its `uop` number; a call reads those its operation names. -/
structure CallOperands where
  key   : Key
  code  : Nat
  width : Nat
deriving DecidableEq, Repr

/-- What an instruction is written in: a 10-bit command word on the command port (30_encoding.md R80), or a component call,
a 4-bit `uop` (30_encoding.md R87) with its operand values. -/
inductive Request where
  | word (cmd : BitVec 10)
  | call (uop : BitVec 4) (operands : CallOperands)
deriving DecidableEq, Repr

end Sys2Proof
end

