-- ==== Sys2Proof/WellFormed.lean ====
section
/-! DEFINITION. What the spec requires of an instruction's operands as such, whatever the state. -/

namespace Sys2Proof

/-- Operand requirements of the spec. Commands have none: every `c`, `mw` and `pol` is encodable (30_encoding.md R81, R83).
`DICT.LOOKUP` and `DICT.INSERT` take a "non-empty byte sequence" (40_dictionary.md R100, R101); the code inserted is a
counter value plus one, a 33-bit result that is never 0 (41_code_width.md R121); `BP.APPEND` takes `code < 2^width` and
`width` 8 to 32 (42_bit_packer.md R125). -/
def Instr.wellFormed : Instr → Bool
  | .byte _ => true
  | .eos => true
  | .start _ _ => true
  | .ioerr => true
  | .dictLookup key => !key.isEmpty
  | .dictInsert key code => !key.isEmpty && decide (1 ≤ code) && decide (code ≤ 2 ^ 32)
  | .dictReset => true
  | .cwWidth => true
  | .cwResetDue => true
  | .bpAppend code width => decide (8 ≤ width) && decide (width ≤ 32) && decide (code < 2 ^ width)
  | .bpFlush => true

/-- `i.wellFormed` as a proposition. -/
abbrev Instr.WellFormed (i : Instr) : Prop := i.wellFormed = true

end Sys2Proof
end

