-- ==== Sys2Proof/Decode.lean ====
section
/-! DEFINITION. The decoder of command words (30_encoding.md R86) and of component calls (30_encoding.md R87), total and
rejecting by name, and after it the encoder, written from the formats of 30_encoding.md R81 to R84 and R87. -/

namespace Sys2Proof

/-- Why a request spells no instruction. The first three are the reserved words of 30_encoding.md R85 (the verdict
`ILLEGAL`); the last is 30_encoding.md R87 "Values 0 and 8 to 15 of `uop` name nothing". -/
inductive DecodeReject where
  /-- `0x101` to `0x1FF`: an `EOS` with non-zero low bits. -/
  | eosLowBits
  /-- `0x280` to `0x2FF`: a `START` with the reserved bit 7 set. -/
  | startReservedBit
  /-- `0x301` to `0x3FF`: an `IOERR` with non-zero low bits. -/
  | ioerrLowBits
  /-- A `uop` number that names no component operation. -/
  | unknownUop
deriving DecidableEq, Repr

/-- The policy a `pol` bit stands for (10_state.md R22). -/
def policyOfBit (b : Bool) : Policy := if b then .growthOnly else .boundedReset

/-- The `pol` bit of a policy (10_state.md R22). -/
def bitOfPolicy : Policy → BitVec 1
  | .boundedReset => 0#1
  | .growthOnly => 1#1

/-- 30_encoding.md R86: `decode(cmd[9:0])`, with the verdict `ILLEGAL` split by the reason of R85. -/
def decodeCommand (cmd : BitVec 10) : Except DecodeReject Instr :=
  if cmd.extractLsb' 8 2 = 0b00#2 then .ok (.byte (cmd.extractLsb' 0 8))
  else if cmd.extractLsb' 8 2 = 0b01#2 then
    if cmd.extractLsb' 0 8 = 0#8 then .ok .eos else .error .eosLowBits
  else if cmd.extractLsb' 8 2 = 0b10#2 then
    if cmd.extractLsb' 7 1 = 0#1 then .ok (.start (cmd.extractLsb' 0 6) (policyOfBit (cmd.getLsbD 6)))
    else .error .startReservedBit
  else if cmd.extractLsb' 0 8 = 0#8 then .ok .ioerr else .error .ioerrLowBits

/-- 30_encoding.md R87: the operation a `uop` number names, with its operand values. -/
def decodeCall (uop : BitVec 4) (operands : CallOperands) : Except DecodeReject Instr :=
  match uop.toNat with
  | 1 => .ok (.dictLookup operands.key)
  | 2 => .ok (.dictInsert operands.key operands.code)
  | 3 => .ok .dictReset
  | 4 => .ok .cwWidth
  | 5 => .ok .cwResetDue
  | 6 => .ok (.bpAppend operands.code operands.width)
  | 7 => .ok .bpFlush
  | _ => .error .unknownUop

/-- The decoder, total on every request. -/
def decode : Request → Except DecodeReject Instr
  | .word cmd => decodeCommand cmd
  | .call uop operands => decodeCall uop operands

/-- The operand values that stand beside a bare `uop` word of the table, which gives the operands no bits: the least
values that every call with such an operand accepts, the key `[0x00]`, the code 1 (an inserted code is a counter value plus
one, so never 0) and the width 8 (log entry 9). -/
def bareOperands : CallOperands := { key := [0#8], code := 1, width := 8 }

/-- The request a word of spec/opcode_table.json stands for: 4-bit rows (`nbits` at most 8) are `uop` numbers, 10-bit rows
are command words; a number that does not fit its row's width is no word (log entry 9). -/
def requestOfTableWord (nbits w : Nat) : Option Request :=
  if nbits ≤ 8 then
    if w < 16 then some (.call (BitVec.ofNat 4 w) bareOperands) else none
  else if w < 1024 then some (.word (BitVec.ofNat 10 w)) else none

/-- The instruction the decoder reads from a table word. -/
def decodeTableWord (nbits w : Nat) : Option Instr :=
  match requestOfTableWord nbits w with
  | none => none
  | some r =>
    match decode r with
    | .ok i => some i
    | .error _ => none

/-- Format B (30_encoding.md R81). -/
def encodeByte (c : Byte) : BitVec 10 := 0b00#2 ++ c

/-- Format E (30_encoding.md R82). -/
def encodeEos : BitVec 10 := 0b01#2 ++ 0#8

/-- Format S (30_encoding.md R83): opcode, the reserved zero, `pol`, `mw`. -/
def encodeStart (mw : BitVec 6) (pol : Policy) : BitVec 10 := 0b10#2 ++ (0#1 ++ (bitOfPolicy pol ++ mw))

/-- Format X (30_encoding.md R84). -/
def encodeIoerr : BitVec 10 := 0b11#2 ++ 0#8

/-- The encoder: command words of formats B, E, S, X, and `uop` numbers of format U (30_encoding.md R81 to R84, R87).
An operand a call does not name is left at its bare value. -/
def encode : Instr → Request
  | .byte c => .word (encodeByte c)
  | .eos => .word encodeEos
  | .start mw pol => .word (encodeStart mw pol)
  | .ioerr => .word encodeIoerr
  | .dictLookup key => .call 1#4 { bareOperands with key := key }
  | .dictInsert key code => .call 2#4 { bareOperands with key := key, code := code }
  | .dictReset => .call 3#4 bareOperands
  | .cwWidth => .call 4#4 bareOperands
  | .cwResetDue => .call 5#4 bareOperands
  | .bpAppend code width => .call 6#4 { bareOperands with code := code, width := width }
  | .bpFlush => .call 7#4 bareOperands

/-- The pseudo-command `DATA b1 b2 ... bn` (30_encoding.md R89): one `BYTE` per byte, in order. -/
def dataCommands (bytes : List Byte) : List Instr := bytes.map .byte

/-- The pseudo-command `ENCODE mw, pol, <data>` (30_encoding.md R89): one whole run. -/
def encodeCommands (mw : BitVec 6) (pol : Policy) (bytes : List Byte) : List Instr :=
  .start mw pol :: (dataCommands bytes ++ [.eos])

end Sys2Proof
end

