-- ==== Sys2Proof/Config.lean ====
section
/-! DEFINITION. What one implementation fixes, and the free values: what the spec calls unspecified has no body here,
so nothing can be proved of it. -/

namespace Sys2Proof

/-- `DICT_CAPACITY` (00_scope.md R7, decision D24, U12): how many entries the store can hold.
OPEN in the spec with the default unbounded, which is taken (log entry 16). -/
def Config.dictCapacity : Option Nat := none

/-- `KEY_MAX_LEN` (00_scope.md R7, decision D24, U12): the longest key the store can hold; unbounded (log entry 16). -/
def Config.keyMaxLen : Option Nat := none

/-- Free value: `cfg.max_width` after the hardware-reset input (10_state.md R21, R39). -/
opaque Config.freeMaxWidth : Nat → BitVec 6

/-- Free value: `cfg.policy` after the hardware-reset input (10_state.md R22, R39). -/
opaque Config.freePolicy : Nat → Policy

/-- Free value: the first byte of an unspecified `prefix` (10_state.md R25, R39; U7, U9). -/
opaque Config.freeKeyHead : Nat → Byte

/-- Free value: the rest of an unspecified `prefix`; `prefix` is "non-empty" (10_state.md R25), so head and tail are apart. -/
opaque Config.freeKeyTail : Nat → Key

/-- Free value: the entries of an unspecified `dict` (10_state.md R26, R39; U7). -/
opaque Config.freeEntries : Nat → List Entry

/-- Free value: `last_assigned_code` after the hardware-reset input (10_state.md R27, R39). -/
opaque Config.freeCounter : Nat → Code

/-- Free value: an unspecified `acc` (10_state.md R29, R39; U7, U9). -/
opaque Config.freeBits : Nat → Bits

end Sys2Proof
end

