-- ==== Sys2Proof/Machine/State.lean ====
section
/-! DEFINITION. The state of the core (10_state.md R20), the reasons a step can stop, and the state after reset. -/

namespace Sys2Proof.Machine

/-- The Encoder Driver's control state (10_state.md R23, 43_driver.md R140). -/
inductive DriverState where
  /-- No run has been started since hardware reset. -/
  | idle
  /-- A run has been started and no byte has come. -/
  | awaitFirstByte
  /-- The driver holds a current prefix known to be a dictionary key. -/
  | matching
  /-- Terminal, after flush. -/
  | done
  /-- The run ended with an error; the kind is in `err`. -/
  | failed
deriving DecidableEq, Repr

/-- The error kinds (10_state.md R24, 60_exceptions.md R170). -/
inductive ErrKind where
  | none
  | config
  | input
  | io
  | internal
  | protocol
  | capacity
deriving DecidableEq, Repr

/-- One emitted code with the width it was emitted at: an element of the ghost list `codes` (10_state.md R33). -/
structure Emission where
  code  : Nat
  width : Nat
deriving DecidableEq, Repr

/-- The MODEL's own record of what the last component call issued as an instruction of its own returned (log entry 8);
calls that return nothing leave it as it is. -/
inductive Answer where
  /-- No call has returned a value yet. -/
  | nothing
  /-- What `DICT.LOOKUP` returned: a code, or `none` for `absent` (40_dictionary.md R100). -/
  | code (c : Option Code)
  /-- What `CW.WIDTH` returned (41_code_width.md R115). -/
  | width (w : Nat)
  /-- What `CW.RESET_DUE` returned (41_code_width.md R116). -/
  | resetDue (b : Bool)
deriving DecidableEq, Repr

/-- One move of the environment (70_reset_and_hazards.md R213), or a component call that a test bench issues. -/
inductive Input where
  /-- A command word on the command port, or (bench only, log entry 7) a component call. -/
  | request (r : Request)
  /-- The reset input is asserted (70_reset_and_hazards.md R200). -/
  | hardReset
  /-- `START_SEEDED(mw, pol, dict0, last0)`, a model-level constructor (60_exceptions.md R186). -/
  | startSeeded (mw : BitVec 6) (pol : Policy) (dict0 : Dict) (last0 : Code)
deriving DecidableEq, Repr

/-- The state. The first nine fields are the spec's tuple (10_state.md R20), the next three its ghost quantities
(10_state.md R33), the last four the model's own (log entries 2, 6, 8, 13). -/
structure State where
  /-- `cfg.max_width` (10_state.md R21). -/
  maxWidth         : BitVec 6
  /-- `cfg.policy` (10_state.md R22). -/
  policy           : Policy
  /-- `state` (10_state.md R23). -/
  state            : DriverState
  /-- `err` (10_state.md R24). -/
  err              : ErrKind
  /-- `prefix` (10_state.md R25); Lean keeps that word for itself. -/
  pfx              : Key
  /-- `dict` (10_state.md R26). -/
  dict             : Dict
  /-- `last_assigned_code` (10_state.md R27). -/
  lastAssignedCode : Code
  /-- `acc` (10_state.md R29): oldest bit first. -/
  acc              : Bits
  /-- `out` (10_state.md R30): the sink stream of the current run, first byte first. -/
  out              : List Byte
  /-- Ghost `n_in` (10_state.md R33). -/
  nIn              : Nat
  /-- Ghost `codes` (10_state.md R33), first emission first. -/
  codes            : List Emission
  /-- Ghost `n_resets` (10_state.md R33). -/
  nResets          : Nat
  /-- Model's own: `BP.FLUSH` has run in this run (93_implementation_defined.md U2; log entry 13). -/
  flushed          : Bool
  /-- Model's own: what the last component call returned (log entry 8). -/
  answer           : Answer
  /-- Model's own: the index of the next free value (log entry 2). -/
  freeCount        : Nat
  /-- Model's own: the environment's moves still to be taken, oldest first (log entry 6). -/
  inputs           : List Input
deriving DecidableEq, Repr

/-- The machine stops with a fault. Every error the spec describes is taken as a next state in `FAILED`
(60_exceptions.md R177); the one fault is a call for which the hardware has no register to hold the result. -/
inductive Fault where
  /-- Raised by `DICT.INSERT` alone, called directly with the 33-bit code 2^32: its stated preconditions hold and the
  32-bit counter cannot hold the code (41_code_width.md R121, R122; 93_implementation_defined.md U5). Safe. -/
  | codeOverflow
deriving DecidableEq, Repr

/-- No meaning for the instruction or the operands: each constructor is a case that 93_implementation_defined.md says to
refuse, or a request that names nothing. -/
inductive Refusal where
  /-- An arm of exec without a meaning (none is left). Safe. -/
  | notModelled (mnemonic : String)
  /-- Raised by step for a component call whose `uop` names nothing (30_encoding.md R87). Safe. -/
  | unknownUop
  /-- Raised by `DICT.INSERT` with the empty key (93_implementation_defined.md U3). Safe. -/
  | emptyKey
  /-- Raised by `DICT.INSERT` with a key already present or a code that is not the counter plus one (U1). Safe. -/
  | insertPrecondition
  /-- Raised by `DICT.INSERT` with a code that another key holds, possible only where the codes are not
  `0..last_assigned_code` (U10). Safe. -/
  | codeCollision
  /-- Raised by `DICT.INSERT` and by seeded construction where a finite `DICT_CAPACITY` or `KEY_MAX_LEN` would be passed
  (U12, decision D24); never under the default. Safe. -/
  | storeLimit
  /-- Raised by `BP.APPEND` with `code >= 2^width` or `width` outside 8 to 32 (U4). Safe. -/
  | appendOutOfRange
  /-- Raised by `BP.APPEND` and `BP.FLUSH` after the run's `BP.FLUSH` (U2). Safe. -/
  | packerFlushed
  /-- Raised by `BP.FLUSH` with more than 7 bits held, which 42_bit_packer.md R127, R128 exclude and give no effect.
  Safe. -/
  | accOverfull
  /-- Raised by seeded construction with a seed that is no dictionary or whose codes can collide (U10). Safe. -/
  | seedCollision
deriving DecidableEq, Repr

/-- The machine right after reset (10_state.md R39, 70_reset_and_hazards.md R200): `state`, `err`, `out` and the ghosts as
the spec says. Every other field is unspecified there and holds the value log entry 1 names. -/
def State.reset : State where
  maxWidth := 0#6
  policy := .boundedReset
  state := .idle
  err := .none
  pfx := [0#8]
  dict := []
  lastAssignedCode := 0#32
  acc := []
  out := []
  nIn := 0
  codes := []
  nResets := 0
  flushed := false
  answer := .nothing
  freeCount := 0
  inputs := []

end Sys2Proof.Machine
end

