-- ==== Sys2Proof/Machine/Ops.lean ====
section
/-! DEFINITION. The named operations every meaning is written over: integers and bits, the dictionary store, the sink,
error entry, the way out of it, and the free values that stand for what the spec leaves unspecified. -/

namespace Sys2Proof

/-- `bit_length(n)` (00_scope.md R9); the value at 0 is general knowledge (G1) and no rule depends on it. -/
def bitLength (n : Nat) : Nat := if n = 0 then 0 else Nat.log2 n + 1

/-- `bitstr_W(v)` (00_scope.md R9): `v[W-1], v[W-2], ..., v[0]`. -/
def bitstr : Nat → Nat → Bits
  | 0, _ => []
  | width + 1, v => v.testBit width :: bitstr width v

/-- A bit sequence read as an unsigned number, the first bit the most significant (20_memory.md R55). -/
def natOfBits (bits : Bits) : Nat := bits.foldl (fun n b => 2 * n + b.toNat) 0

/-- Eight bits "read as a byte with the first bit as bit 7" (42_bit_packer.md R126). -/
def byteOfBits (bits : Bits) : Byte := BitVec.ofNat 8 (natOfBits bits)

/-- `MemRead(DICT, key)` (20_memory.md R53): the code of the entry whose key equals `key` byte for byte, or absent. -/
def memReadDict (d : Dict) (key : Key) : Option Code :=
  match d with
  | [] => none
  | e :: rest => if e.key = key then some e.code else memReadDict rest key

/-- `MemWrite(DICT, key, code)` (20_memory.md R53) adds the entry, at its place in rising order of codes. -/
def memWriteDict (d : Dict) (key : Key) (code : Code) : Dict :=
  match d with
  | [] => [⟨key, code⟩]
  | e :: rest =>
    if e.code.toNat < code.toNat then e :: memWriteDict rest key code else ⟨key, code⟩ :: e :: rest

/-- Some key holds this code. -/
def codeInUse (d : Dict) (code : Code) : Bool := d.any (fun e => e.code == code)

/-- `d` is the canonical listing of a finite map from non-empty keys to unique codes (10_state.md R26): codes strictly
rising, keys distinct and non-empty. -/
def dictWf : Dict → Bool
  | [] => true
  | e :: rest =>
    !e.key.isEmpty && rest.all (fun x => decide (e.code.toNat < x.code.toNat) && !(e.key == x.key)) && dictWf rest

/-- The 256 singletons `{ ([b], b) : b in 0..255 }` (40_dictionary.md R102). -/
def singletons : Dict := (List.range 256).map fun b => ⟨[BitVec.ofNat 8 b], BitVec.ofNat 32 b⟩

/-- The dictionary a list of entries spells: each entry is added unless its key is empty or its key or code is taken.
Every canonical listing spells itself, so a free list spells any dictionary. -/
def dictOfEntries (entries : List Entry) : Dict :=
  entries.foldl (fun d e =>
    if e.key.isEmpty || (memReadDict d e.key).isSome || codeInUse d e.code then d else memWriteDict d e.key e.code) []

namespace Machine

/-- One outcome after another: the second operation runs only where the first answers a next state. -/
def andThen (o : Host.Outcome State Fault Refusal) (f : State → Host.Outcome State Fault Refusal) :
    Host.Outcome State Fault Refusal :=
  match o with
  | .next s => f s
  | .fault r => .fault r
  | .refused r => .refused r

/-- `MemWrite(SINK, 1, b)` (20_memory.md R52): `out <- out ++ [b]` and nothing else. -/
def memWriteSink (b : Byte) (s : State) : State := { s with out := s.out ++ [b] }

/-- The model's record of what a component call issued as an instruction returned (log entry 8). -/
def recordAnswer (a : Answer) (s : State) : State := { s with answer := a }

/-- `prefix <- key`. -/
def setPrefix (key : Key) (s : State) : State := { s with pfx := key }

/-- `state <- S`, this hardware's form of a jump (00_scope.md R10). -/
def setState (d : DriverState) (s : State) : State := { s with state := d }

/-- What waits in the queue once a move has been taken off it (log entry 6). -/
def setInputs (later : List Input) (s : State) : State := { s with inputs := later }

/-- The free value standing for an unspecified `prefix` (U7, U9), non-empty as 10_state.md R25 says. -/
def freePrefix (n : Nat) : Key := Config.freeKeyHead n :: Config.freeKeyTail n

/-- The free value standing for an unspecified `acc` (U7, U9), of 0 to 7 bits as 10_state.md R20 bounds it between
operations. -/
def freeAcc (n : Nat) : Bits := (Config.freeBits n).take 7

/-- The free value standing for an unspecified `dict` (U7). -/
def freeDict (n : Nat) : Dict := dictOfEntries (Config.freeEntries n)

/-- Error entry, `raise K` (60_exceptions.md R177): `err <- K; state <- FAILED`. In `FAILED` the values of `acc` and
`prefix` are unspecified (60_exceptions.md R179, decision D26), so both become free values (log entry 4). -/
def raise (k : ErrKind) (s : State) : State :=
  { s with
    err := k
    state := .failed
    acc := freeAcc s.freeCount
    pfx := freePrefix s.freeCount
    freeCount := s.freeCount + 1 }

/-- `raise CONFIG` of a rejected `START`: 60_exceptions.md R177 says that `acc` is emptied there, as the command's
pseudocode did before the `raise` (43_driver.md R142; log entry 5). -/
def raiseConfig (s : State) : State := { raise .config s with acc := [] }

/-- The effect of a word that spells no command (43_driver.md R149, R151), and of a command in a state that does not take
it (43_driver.md R150, R151): `raise PROTOCOL`, but ignored in `FAILED`. -/
def protocolError (s : State) : State :=
  match s.state with
  | .failed => s
  | .idle => raise .protocol s
  | .awaitFirstByte => raise .protocol s
  | .matching => raise .protocol s
  | .done => raise .protocol s

/-- The first part of `START` (43_driver.md R142): `cfg` is written, `out`, `acc` and the ghosts are emptied. -/
def openRun (mw : BitVec 6) (pol : Policy) (s : State) : State :=
  { s with
    maxWidth := mw
    policy := pol
    out := []
    acc := []
    codes := []
    nIn := 0
    nResets := 0
    flushed := false }

/-- The last part of an accepted `START` (43_driver.md R142) over the given dictionary content: the only way out of
`FAILED` but hardware reset (60_exceptions.md R181). `prefix` is unspecified after it (10_state.md R39, 70_reset_and_hazards.md
R201), so it becomes a free value (log entry 3). -/
def enterRun (dict0 : Dict) (last0 : Code) (s : State) : State :=
  { s with
    dict := dict0
    lastAssignedCode := last0
    err := .none
    state := .awaitFirstByte
    pfx := freePrefix s.freeCount
    freeCount := s.freeCount + 1 }

/-- The end of a run, `state <- DONE` (43_driver.md R146). 10_state.md R25 calls `prefix` unspecified in every state but
`MATCHING`, so here it becomes a free value (log entry 22). -/
def finishRun (s : State) : State :=
  { s with
    state := .done
    pfx := freePrefix s.freeCount
    freeCount := s.freeCount + 1 }

/-- Hardware reset (70_reset_and_hazards.md R200, 10_state.md R39): `state = IDLE`, `err = NONE`, `out` and the ghosts
empty, every other piece of the spec's state unspecified, so a free value (log entry 2). The environment's later moves
stay (log entry 20). -/
def hardReset (s : State) : State :=
  { s with
    maxWidth := Config.freeMaxWidth s.freeCount
    policy := Config.freePolicy s.freeCount
    state := .idle
    err := .none
    pfx := freePrefix s.freeCount
    dict := freeDict s.freeCount
    lastAssignedCode := Config.freeCounter s.freeCount
    acc := freeAcc s.freeCount
    out := []
    nIn := 0
    codes := []
    nResets := 0
    flushed := false
    answer := .nothing
    freeCount := s.freeCount + 1 }

end Machine
end Sys2Proof
end

