-- ==== Sys2Proof/Machine/Operands.lean ====
section
/-! DEFINITION. The operand forms: what the driver hands to the component operations, and the ranges operands must be in. -/

namespace Sys2Proof.Machine

/-- The candidate `prefix ++ [c]` for the incoming byte (43_driver.md R144). -/
def candidate (c : Byte) (s : State) : Key := s.pfx ++ [c]

/-- `last_assigned_code + 1`, without wrap-around (41_code_width.md R121). -/
def nextCode (s : State) : Nat := s.lastAssignedCode.toNat + 1

/-- "valid `mw`" means `9 <= mw <= 32` (43_driver.md R141). -/
def mwValid (mw : BitVec 6) : Bool := decide (9 ≤ mw.toNat) && decide (mw.toNat ≤ 32)

/-- The operand bounds of `BP.APPEND` (42_bit_packer.md R125). -/
def appendInRange (code width : Nat) : Bool := decide (8 ≤ width) && decide (width ≤ 32) && decide (code < 2 ^ width)

/-- `n` is within an optional limit. -/
def withinLimit (limit : Option Nat) (n : Nat) : Bool :=
  match limit with
  | none => true
  | some m => decide (n ≤ m)

/-- A store that holds `d` can take one more entry with this key (20_memory.md R68, decision D24). -/
def storeTakes (d : Dict) (key : Key) : Bool :=
  withinLimit Config.dictCapacity (d.length + 1) && withinLimit Config.keyMaxLen key.length

/-- The store can hold `d` (20_memory.md R68, decision D24). -/
def storeHolds (d : Dict) : Bool :=
  withinLimit Config.dictCapacity d.length && d.all (fun e => withinLimit Config.keyMaxLen e.key.length)

/-- A seed the rules give a meaning: a dictionary none of whose codes a later insertion can collide with (60_exceptions.md
R186, 93_implementation_defined.md U10; log entry 17). -/
def seedUsable (dict0 : Dict) (last0 : Code) : Bool :=
  dictWf dict0 && dict0.all (fun e => decide (e.code.toNat ≤ last0.toNat))

end Sys2Proof.Machine
end

