-- ==== Sys2Proof/Machine/Flags.lean ====
section
/-! DEFINITION. The code width, the four computed flags and the status outputs: pure functions of the state
(10_state.md R28, R32). -/

namespace Sys2Proof.Machine

/-- `width = max(8, bit_length(last_assigned_code))` (10_state.md R28, 41_code_width.md R115). -/
def width (s : State) : Nat := max 8 (bitLength s.lastAssignedCode.toNat)

/-- `hit` (10_state.md R32): the candidate is a dictionary key. -/
def hit (c : Byte) (s : State) : Bool := (memReadDict s.dict (candidate c s)).isSome

/-- `reset_due` (10_state.md R32, 41_code_width.md R116). -/
def resetDue (s : State) : Bool :=
  match s.policy with
  | .growthOnly => false
  | .boundedReset => decide (bitLength (nextCode s) > s.maxWidth.toNat)

/-- `acc_nonempty` (10_state.md R32). -/
def accNonempty (s : State) : Bool := decide (1 ≤ s.acc.length)

/-- `capacity_full` (10_state.md R32, 41_code_width.md R122). -/
def capacityFull (s : State) : Bool :=
  match s.policy with
  | .boundedReset => false
  | .growthOnly => decide (s.lastAssignedCode.toNat = 2 ^ 32 - 1)

/-- Status output `done` (10_state.md R32). -/
def doneOutput (s : State) : Bool := decide (s.state = .done)

/-- Status output `failed` (10_state.md R32). -/
def failedOutput (s : State) : Bool := decide (s.state = .failed)

/-- The encoding of `state` (10_state.md R23). -/
def stateBits : DriverState → BitVec 3
  | .idle => 0#3
  | .awaitFirstByte => 1#3
  | .matching => 2#3
  | .done => 3#3
  | .failed => 4#3

/-- The encoding of `err` (10_state.md R24, 60_exceptions.md R170). -/
def errBits : ErrKind → BitVec 3
  | .none => 0#3
  | .config => 1#3
  | .input => 2#3
  | .io => 3#3
  | .internal => 4#3
  | .protocol => 5#3
  | .capacity => 6#3

end Sys2Proof.Machine
end

