-- ==== Sys2Proof/Machine/BitPacker.lean ====
section
/-! DEFINITION. The Bit Packer (42_bit_packer.md): its operations as the driver calls them, the meanings of the table's rows
`BP.APPEND` and `BP.FLUSH`, and the numeric form of 42_bit_packer.md R130. -/

namespace Sys2Proof.Machine

/-- One turn of the loop of `DRAIN` (42_bit_packer.md R126): the leading 8 bits leave `acc` as a completed byte. -/
def extractByte (s : State) : State := { memWriteSink (byteOfBits (s.acc.take 8)) s with acc := s.acc.drop 8 }

/-- The loop of `DRAIN`, at most `turns` turns: `while len(acc) >= 8`. -/
def drainLoop : Nat → State → State
  | 0, s => s
  | turns + 1, s => if 8 ≤ s.acc.length then drainLoop turns (extractByte s) else s

/-- `DRAIN()` (42_bit_packer.md R126): "The loop runs `floor(len(acc) / 8)` times". -/
def drain (s : State) : State := drainLoop (s.acc.length / 8) s

/-- The first two lines of `BP.APPEND` (42_bit_packer.md R125): the bits of the code go behind those held, and the ghost
list records the emission. -/
def pushCode (code width : Nat) (s : State) : State :=
  { s with acc := s.acc ++ bitstr width code, codes := s.codes ++ [⟨code, width⟩] }

/-- `BP.APPEND(code, width)` (42_bit_packer.md R125). Operands out of range are refused (93_implementation_defined.md U4;
log entry 12), and so is a call after the run's flush (U2; log entry 13). -/
def bpAppend (code width : Nat) (s : State) : Host.Outcome State Fault Refusal :=
  if appendInRange code width = false then .refused .appendOutOfRange
  else if s.flushed = true then .refused .packerFlushed
  else .next (drain (pushCode code width s))

/-- The byte of a flush: `acc` right-padded with zero bits to 8 (42_bit_packer.md R127). -/
def flushByte (acc : Bits) : Byte := byteOfBits (acc ++ List.replicate (8 - acc.length) false)

/-- The end of `BP.FLUSH`: nothing is held any more, and the packer is closed for the run (log entry 13). -/
def closePacker (s : State) : State := { s with acc := [], flushed := true }

/-- `BP.FLUSH()` (42_bit_packer.md R127). A second call in a run is refused (93_implementation_defined.md U2; log entry
13), and so is a call with more than 7 bits held (log entry 14). -/
def bpFlush (s : State) : Host.Outcome State Fault Refusal :=
  if s.flushed = true then .refused .packerFlushed
  else if 8 ≤ s.acc.length then .refused .accOverfull
  else if accNonempty s = true then .next (closePacker (memWriteSink (flushByte s.acc) s))
  else .next (closePacker s)

/-- Meaning of the row `BP.APPEND`. -/
def execBpAppend (code width : Nat) (s : State) : Host.Outcome State Fault Refusal := bpAppend code width s

/-- Meaning of the row `BP.FLUSH`. -/
def execBpFlush (s : State) : Host.Outcome State Fault Refusal := bpFlush s

/-- The accumulator as the pair (`acc_val`, `acc_len`) of 42_bit_packer.md R130. -/
structure NumericAcc where
  accVal : Nat
  accLen : Nat
deriving DecidableEq, Repr

/-- R130: "append is `acc_val <- (acc_val << width) | code; acc_len <- acc_len + width`". -/
def numericAppend (code width : Nat) (a : NumericAcc) : NumericAcc := ⟨(a.accVal <<< width) ||| code, a.accLen + width⟩

/-- R130: "`b <- (acc_val >> (acc_len - 8)) & 0xFF`". -/
def numericByte (a : NumericAcc) : Byte := BitVec.ofNat 8 ((a.accVal >>> (a.accLen - 8)) &&& 0xFF)

/-- R130: "`acc_len <- acc_len - 8; acc_val <- acc_val & (2^acc_len - 1)`". -/
def numericDrop (a : NumericAcc) : NumericAcc := ⟨a.accVal &&& (2 ^ (a.accLen - 8) - 1), a.accLen - 8⟩

/-- `DRAIN` over the numeric form, at most `turns` bytes: the bytes in order, and what is left. -/
def numericDrain : Nat → NumericAcc → List Byte × NumericAcc
  | 0, a => ([], a)
  | turns + 1, a =>
    if 8 ≤ a.accLen then
      (numericByte a :: (numericDrain turns (numericDrop a)).1, (numericDrain turns (numericDrop a)).2)
    else ([], a)

/-- R130: "the flush byte is `(acc_val << (8 - acc_len)) & 0xFF`". -/
def numericFlushByte (a : NumericAcc) : Byte := BitVec.ofNat 8 ((a.accVal <<< (8 - a.accLen)) &&& 0xFF)

/-- The numeric form of a bit sequence: "an unsigned `acc_len`-bit number whose most-significant bit is the oldest bit". -/
def numericOf (bits : Bits) : NumericAcc := ⟨natOfBits bits, bits.length⟩

end Sys2Proof.Machine
end

