-- ==== Sys2Proof/Machine/CodeWidth.lean ====
section
/-! DEFINITION. The Code-Width Tracker (41_code_width.md): the meanings of the table's rows `CW.WIDTH` and `CW.RESET_DUE`.
Both are pure functions (Flags.lean); the model records what they return (log entry 8). -/

namespace Sys2Proof.Machine

/-- Meaning of the row `CW.WIDTH` (41_code_width.md R115). -/
def execCwWidth (s : State) : Host.Outcome State Fault Refusal := .next (recordAnswer (.width (width s)) s)

/-- Meaning of the row `CW.RESET_DUE` (41_code_width.md R116). -/
def execCwResetDue (s : State) : Host.Outcome State Fault Refusal :=
  .next (recordAnswer (.resetDue (resetDue s)) s)

end Sys2Proof.Machine
end

