-- ==== Sys2Proof/Machine/Dictionary.lean ====
section
/-! DEFINITION. The Dictionary Manager (40_dictionary.md): its operations as the driver calls them, and the meanings of the
table's rows `DICT.LOOKUP`, `DICT.INSERT`, `DICT.RESET`. -/

namespace Sys2Proof.Machine

/-- `DICT.LOOKUP(key)` (40_dictionary.md R100). -/
def dictLookup (key : Key) (s : State) : Option Code := memReadDict s.dict key

/-- The effect of an insertion (40_dictionary.md R101): `MemWrite(DICT, key, code); last_assigned_code <- code`. -/
def learn (key : Key) (code : Code) (s : State) : State :=
  { s with dict := memWriteDict s.dict key code, lastAssignedCode := code }

/-- `DICT.INSERT(key, code)` (40_dictionary.md R101). A broken precondition is refused, neither an overwrite nor a no-op
(93_implementation_defined.md U1; log entry 10). -/
def dictInsert (key : Key) (code : Nat) (s : State) : Host.Outcome State Fault Refusal :=
  if key = [] then .refused .emptyKey
  else if dictLookup key s ≠ none then .refused .insertPrecondition
  else if code ≠ nextCode s then .refused .insertPrecondition
  else if 2 ^ 32 ≤ code then .fault .codeOverflow
  else if codeInUse s.dict (BitVec.ofNat 32 code) = true then .refused .codeCollision
  else if storeTakes s.dict key = false then .refused .storeLimit
  else .next (learn key (BitVec.ofNat 32 code) s)

/-- `DICT.RESET()` (40_dictionary.md R102). -/
def dictReset (s : State) : State := { s with dict := singletons, lastAssignedCode := 255#32 }

/-- Meaning of the row `DICT.LOOKUP`: no state of the core is written; the model records the answer (log entry 8). The
empty key answers absent (93_implementation_defined.md U3; log entry 15). -/
def execDictLookup (key : Key) (s : State) : Host.Outcome State Fault Refusal :=
  .next (recordAnswer (.code (dictLookup key s)) s)

/-- Meaning of the row `DICT.INSERT`. -/
def execDictInsert (key : Key) (code : Nat) (s : State) : Host.Outcome State Fault Refusal := dictInsert key code s

/-- Meaning of the row `DICT.RESET`. -/
def execDictReset (s : State) : Host.Outcome State Fault Refusal := .next (dictReset s)

end Sys2Proof.Machine
end

