-- ==== Sys2Proof/Machine/Driver.lean ====
section
/-! DEFINITION. The Encoder Driver (43_driver.md): the commands `START`, `BYTE`, `EOS`, `IOERR`, dispatched on `state` as
43_driver.md R141 tabulates. -/

namespace Sys2Proof.Machine

/-- The ghost `n_in` counts the byte consumed (10_state.md R33, 43_driver.md R143, R144). -/
def countByte (s : State) : State := { s with nIn := s.nIn + 1 }

/-- `BYTE c` in `AWAIT_FIRST_BYTE` (43_driver.md R143): no lookup, nothing emitted. -/
def byteFirst (c : Byte) (s : State) : State := setState .matching (setPrefix [c] (countByte s))

/-- Emission (43_driver.md R145, R146, R153): look `prefix` up and append its code at the current width, then go on; an
absent `prefix` raises `INTERNAL`, nothing is emitted and no code is substituted. -/
def emitPrefix (s : State) (goOn : State → Host.Outcome State Fault Refusal) : Host.Outcome State Fault Refusal :=
  match dictLookup s.pfx s with
  | none => .next (raise .internal s)
  | some p => andThen (bpAppend p.toNat (width s) s) goOn

/-- The driver's own call of `DICT.RESET` counts in the ghost `n_resets` (10_state.md R33, 43_driver.md R145). -/
def countedReset (s : State) : State := { dictReset s with nResets := s.nResets + 1 }

/-- The second half of the miss arm (43_driver.md R145): after the emission, reset instead of inserting, or raise
`CAPACITY` (41_code_width.md R122), or insert the candidate; then restart from the unmatched byte. -/
def learnOrReset (c : Byte) (s : State) : Host.Outcome State Fault Refusal :=
  if resetDue s = true then .next (setPrefix [c] (countedReset s))
  else if capacityFull s = true then .next (raise .capacity s)
  else andThen (dictInsert (candidate c s) (nextCode s) s) fun t => .next (setPrefix [c] t)

/-- `BYTE c` in `MATCHING` (43_driver.md R144 hit, R145 miss). -/
def byteMatching (c : Byte) (s : State) : Host.Outcome State Fault Refusal :=
  if hit c s = true then .next (setPrefix (candidate c s) (countByte s))
  else emitPrefix (countByte s) (learnOrReset c)

/-- `EOS` in `MATCHING` (43_driver.md R146): emit, flush, finish; the counter is not touched. In `DONE` `prefix` is
unspecified (10_state.md R25): a free value (log entry 22). -/
def eosMatching (s : State) : Host.Outcome State Fault Refusal :=
  emitPrefix s fun t => andThen (bpFlush t) fun u => .next (finishRun u)

/-- `START` where a run may begin (43_driver.md R142). -/
def startAccepted (mw : BitVec 6) (pol : Policy) (s : State) : State :=
  if mwValid mw = true then enterRun singletons 255#32 (openRun mw pol s) else raiseConfig (openRun mw pol s)

/-- Meaning of `BYTE c` (43_driver.md R141, R143, R144, R145, R150, R151). -/
def execByte (c : Byte) (s : State) : Host.Outcome State Fault Refusal :=
  match s.state with
  | .idle => .next (protocolError s)
  | .awaitFirstByte => .next (byteFirst c s)
  | .matching => byteMatching c s
  | .done => .next (protocolError s)
  | .failed => .next s

/-- Meaning of `EOS` (43_driver.md R141, R146, R147, R150, R151). -/
def execEos (s : State) : Host.Outcome State Fault Refusal :=
  match s.state with
  | .idle => .next (protocolError s)
  | .awaitFirstByte => .next (raise .input s)
  | .matching => eosMatching s
  | .done => .next (protocolError s)
  | .failed => .next s

/-- Meaning of `START mw, pol` (43_driver.md R141, R142, R150). The state check comes before the range check
(60_exceptions.md R180). -/
def execStart (mw : BitVec 6) (pol : Policy) (s : State) : Host.Outcome State Fault Refusal :=
  match s.state with
  | .idle => .next (startAccepted mw pol s)
  | .awaitFirstByte => .next (protocolError s)
  | .matching => .next (protocolError s)
  | .done => .next (startAccepted mw pol s)
  | .failed => .next (startAccepted mw pol s)

/-- Meaning of `IOERR` (43_driver.md R141, R148, R150, R151): `out` is kept, nothing is flushed. -/
def execIoerr (s : State) : Host.Outcome State Fault Refusal :=
  match s.state with
  | .idle => .next (protocolError s)
  | .awaitFirstByte => .next (raise .io s)
  | .matching => .next (raise .io s)
  | .done => .next (protocolError s)
  | .failed => .next s

end Sys2Proof.Machine
end

