-- ==== Sys2Proof/Machine/Dispatch.lean ====
section
/-! DEFINITION. One arm per constructor of Instr: the meaning of each. -/

namespace Sys2Proof.Machine

def exec (i : Instr) (s : State) : Host.Outcome State Fault Refusal :=
  match i with
  | .byte c => Sys2Proof.Machine.execByte c s
  | .eos => Sys2Proof.Machine.execEos s
  | .start mw pol => Sys2Proof.Machine.execStart mw pol s
  | .ioerr => Sys2Proof.Machine.execIoerr s
  | .dictLookup key => Sys2Proof.Machine.execDictLookup key s
  | .dictInsert key code => Sys2Proof.Machine.execDictInsert key code s
  | .dictReset => Sys2Proof.Machine.execDictReset s
  | .cwWidth => Sys2Proof.Machine.execCwWidth s
  | .cwResetDue => Sys2Proof.Machine.execCwResetDue s
  | .bpAppend code width => Sys2Proof.Machine.execBpAppend code width s
  | .bpFlush => Sys2Proof.Machine.execBpFlush s

end Sys2Proof.Machine
end

