-- ==== Sys2Proof/Machine/Environment.lean ====
section
/-! DEFINITION. What the core does with one move of the environment (70_reset_and_hazards.md R213): a request, the hardware
reset, a seeded construction. -/

namespace Sys2Proof.Machine

/-- `START_SEEDED` where a run may begin (60_exceptions.md R186): "as START(mw, pol), but in place of DICT.RESET()" the
seed. A seed to which no meaning is given is refused (93_implementation_defined.md U10; log entry 17). -/
def seededAccepted (mw : BitVec 6) (pol : Policy) (dict0 : Dict) (last0 : Code) (s : State) :
    Host.Outcome State Fault Refusal :=
  if mwValid mw = false then .next (raiseConfig (openRun mw pol s))
  else if seedUsable dict0 last0 = false then .refused .seedCollision
  else if storeHolds dict0 = false then .refused .storeLimit
  else .next (enterRun dict0 last0 (openRun mw pol s))

/-- `START_SEEDED(mw, pol, dict0, last0)` (60_exceptions.md R186), taken in the states that take `START`. -/
def startSeeded (mw : BitVec 6) (pol : Policy) (dict0 : Dict) (last0 : Code) (s : State) :
    Host.Outcome State Fault Refusal :=
  match s.state with
  | .idle => seededAccepted mw pol dict0 last0 s
  | .awaitFirstByte => .next (protocolError s)
  | .matching => .next (protocolError s)
  | .done => seededAccepted mw pol dict0 last0 s
  | .failed => seededAccepted mw pol dict0 last0 s

/-- A request that spells no instruction: an `ILLEGAL` command word raises `PROTOCOL` (43_driver.md R149, R151), and a
`uop` that names nothing is refused (30_encoding.md R87). -/
def rejectRequest (why : DecodeReject) (s : State) : Host.Outcome State Fault Refusal :=
  match why with
  | .eosLowBits => .next (protocolError s)
  | .startReservedBit => .next (protocolError s)
  | .ioerrLowBits => .next (protocolError s)
  | .unknownUop => .refused .unknownUop

/-- A request is decoded and its instruction executed (30_encoding.md R86, 60_exceptions.md R180). -/
def takeRequest (r : Request) (s : State) : Host.Outcome State Fault Refusal :=
  match decode r with
  | .ok i => exec i s
  | .error why => rejectRequest why s

/-- One move of the environment takes effect on the whole state (00_scope.md R11). -/
def takeInput (x : Input) (s : State) : Host.Outcome State Fault Refusal :=
  match x with
  | .request r => takeRequest r s
  | .hardReset => .next (hardReset s)
  | .startSeeded mw pol dict0 last0 => startSeeded mw pol dict0 last0 s

/-- The oldest move is taken off the queue and takes effect; with none waiting "the core waits"
(70_reset_and_hazards.md R200; log entry 6). -/
def takeNext (s : State) : Host.Outcome State Fault Refusal :=
  match s.inputs with
  | [] => .next s
  | x :: later => takeInput x (setInputs later s)

/-- `s` with the request of a table word waiting before every other move; a number that is no word of the table's row
places nothing. -/
def placeTableWord (s : State) (nbits w : Nat) : State :=
  match requestOfTableWord nbits w with
  | none => s
  | some r => setInputs (.request r :: s.inputs) s

end Sys2Proof.Machine
end

