-- ==== Sys2Proof/Safety.lean ====
section
/-! DEFINITION. What counts as a good state, in the terms the claims use: the invariants of 10_state.md R34 and of
30_encoding.md R77, the output read as a bit string (20_memory.md R56), and which moves the environment may make
(70_reset_and_hazards.md R213). -/

namespace Sys2Proof.Machine

/-- A byte as 8 bits of the stream, bit 7 first (20_memory.md R55). -/
def bitsOfByte (b : Byte) : Bits := bitstr 8 b.toNat

/-- `out` "seen as one long bit string" (20_memory.md R56). -/
def sinkBits (out : List Byte) : Bits := out.flatMap bitsOfByte

/-- The concatenation of `bitstr_w(code)` for every emitted code, in order (20_memory.md R56, 30_encoding.md R75). -/
def codeBits (codes : List Emission) : Bits := codes.flatMap fun e => bitstr e.width e.code

/-- The padding of 30_encoding.md R75 after `n` bits: `(8 - n mod 8) mod 8` zeros. -/
def padBits (n : Nat) : Bits := List.replicate ((8 - n % 8) % 8) false

/-- `t` differs from `s` in the packer by exactly one code appended: the stream's bits, those still in `acc` among them,
are the old ones followed by `bitstr_w(code)`, and every whole byte has left `acc` (42_bit_packer.md R125, R126, R128). -/
def AppendsCode (code w : Nat) (s t : State) : Prop :=
  sinkBits t.out ++ t.acc = sinkBits s.out ++ s.acc ++ bitstr w code ∧ t.acc.length ≤ 7 ∧
    t.codes = s.codes ++ [⟨code, w⟩]

/-- `d` holds exactly the 256 singletons (40_dictionary.md R102), said through reads. -/
def HoldsOnlySingletons (d : Dict) : Prop :=
  d.length = 256 ∧ (∀ b : Byte, memReadDict d [b] = some (b.setWidth 32)) ∧
    ∀ key : Key, key.length ≠ 1 → memReadDict d key = none

/-- A run is under way or finished: the states 10_state.md R34 speaks of. -/
def inRun (s : State) : Bool :=
  match s.state with
  | .idle => false
  | .awaitFirstByte => true
  | .matching => true
  | .done => true
  | .failed => false

/-- What holds of every state of the machine whatever is done to it: the dictionary is a map in canonical form, `acc` has 0
to 7 bits and `prefix` is non-empty (10_state.md R20), and `err` is `NONE` exactly outside `FAILED` (10_state.md R24). -/
structure Sound (s : State) : Prop where
  dictWf         : dictWf s.dict = true
  accShort       : s.acc.length ≤ 7
  prefixNonempty : s.pfx ≠ []
  errNone        : s.err = .none ↔ s.state ≠ .failed

/-- The dictionary invariant: D1, D2, D4, D5 of 10_state.md R34 over a dictionary and its counter. -/
structure DictInv (d : Dict) (last : Code) : Prop where
  /-- D1 "all keys are distinct" (with the canonical form). -/
  wf           : dictWf d = true
  /-- D2 "the set of codes is exactly `{0..last_assigned_code}` with no gaps". -/
  codes        : d.map (fun e => e.code.toNat) = List.range (last.toNat + 1)
  /-- D4, the singletons. -/
  singles      : ∀ b : Byte, memReadDict d [b] = some (b.setWidth 32)
  /-- D5, prefix-closed. -/
  prefixClosed : ∀ (key : Key) (c : Byte), key ≠ [] → memReadDict d (key ++ [c]) ≠ none → memReadDict d key ≠ none

/-- A code in the stream: `8 <= w_k <= 32` and `v_k < 2^(w_k)` (30_encoding.md R76). -/
def EmissionFits (e : Emission) : Prop := 8 ≤ e.width ∧ e.width ≤ 32 ∧ e.code < 2 ^ e.width

/-- What 10_state.md R34 says of a state in a run. -/
structure RunInv (s : State) : Prop where
  dict      : DictInv s.dict s.lastAssignedCode
  /-- D4, the counter's bounds. -/
  lastLow   : 255 ≤ s.lastAssignedCode.toNat
  lastHigh  : s.policy = .boundedReset → s.lastAssignedCode.toNat ≤ 2 ^ s.maxWidth.toNat - 1
  /-- The run was accepted (43_driver.md R142). -/
  cfgValid  : mwValid s.maxWidth = true
  /-- P1. -/
  matched   : s.state = .matching → memReadDict s.dict s.pfx ≠ none
  /-- A1 in `DONE`. -/
  accDone   : s.state = .done → s.acc = []
  /-- B1, strengthened to the bits themselves (42_bit_packer.md R131), while the stream is open. -/
  bitsOpen  : s.state ≠ .done → sinkBits s.out ++ s.acc = codeBits s.codes
  /-- B1 in `DONE`: the stream of 30_encoding.md R75. -/
  bitsDone  : s.state = .done → sinkBits s.out = codeBits s.codes ++ padBits (codeBits s.codes).length
  emissions : ∀ e ∈ s.codes, EmissionFits e
  /-- Nothing is emitted before the first byte, and something by the end (30_encoding.md R75, `n >= 1`). -/
  fresh     : s.state = .awaitFirstByte → s.codes = []
  emitted   : s.state = .done → s.codes ≠ []
  /-- The packer is closed exactly in `DONE` (70_reset_and_hazards.md R209). -/
  closed    : s.flushed = true ↔ s.state = .done

/-- The invariant of the machine: sound, and 10_state.md R34 in a run. -/
def Inv (s : State) : Prop := Sound s ∧ (inRun s = true → RunInv s)

/-- `L_{k+1}` of 30_encoding.md R77, for `k` = 0, 1, ...: the counter seen by the emission after `k` others. -/
def counterAfter (pol : Policy) (mw : Nat) : Nat → Nat
  | 0 => 255
  | k + 1 =>
    if pol = .boundedReset ∧ mw < bitLength (counterAfter pol mw k + 1) then 255 else counterAfter pol mw k + 1

/-- 30_encoding.md R77 in a state: the `k`-th code has the width the position alone determines, and the counter stands
where that sequence says. -/
structure WidthInv (s : State) : Prop where
  widths : s.codes.map (fun e => e.width) =
    (List.range s.codes.length).map fun k => max 8 (bitLength (counterAfter s.policy s.maxWidth.toNat k))
  counter : s.state ≠ .done →
    s.lastAssignedCode.toNat = counterAfter s.policy s.maxWidth.toNat s.codes.length
  counterDone : s.state = .done →
    s.lastAssignedCode.toNat = counterAfter s.policy s.maxWidth.toNat (s.codes.length - 1)

/-- The seeds for which 60_exceptions.md R186 says the invariants of 10_state.md R34 hold. -/
def SeedWellFormed (mw : BitVec 6) (pol : Policy) (dict0 : Dict) (last0 : Code) : Prop :=
  DictInv dict0 last0 ∧ (pol = .boundedReset → last0.toNat ≤ 2 ^ mw.toNat - 1)

/-- The moves a port offers (70_reset_and_hazards.md R213): a command word, whatever it is, or the hardware reset. -/
def PortMove : Input → Prop
  | .request (.word _) => True
  | .request (.call _ _) => False
  | .hardReset => True
  | .startSeeded _ _ _ _ => False

/-- The moves 70_reset_and_hazards.md R213 lets the environment make: a port move, or a seeded construction that meets the
well-formedness conditions of 60_exceptions.md R186. A component call is none (log entry 7). -/
def EnvironmentMove : Input → Prop
  | .request (.word _) => True
  | .request (.call _ _) => False
  | .hardReset => True
  | .startSeeded mw pol dict0 last0 => SeedWellFormed mw pol dict0 last0

/-- A run may begin: `START` is accepted in `IDLE`, `DONE` and `FAILED` (43_driver.md R142). -/
def takesStart (s : State) : Bool :=
  match s.state with
  | .idle => true
  | .awaitFirstByte => false
  | .matching => false
  | .done => true
  | .failed => true

/-- Commands as they stand in the queue. -/
def commandInputs (is : List Instr) : List Input := is.map fun i => .request (encode i)

end Sys2Proof.Machine
end

