-- ==== Sys2Proof/Certificates/Slice0/Obligations.lean ====
section
/-! DEFINITION. The statements for the provers. -/

open Sys2Proof Sys2Proof.Machine

/-! ## Encoding and stepping -/

/-- 30_encoding.md R81 to R84, R86, R87: decoding an encoded instruction gives it back, every operand at every value. -/
def Obligations.EncodedInstructionsDecodeBack : Prop :=
  ∀ i : Instr, decode (encode i) = .ok i

/-- 30_encoding.md R81 to R84, R87, the other way: a command word that decodes is the encoding of what it decodes to, and a
`uop` number that decodes is the number of the operation it names. -/
def Obligations.DecodedRequestsEncodeBack : Prop :=
  (∀ (cmd : BitVec 10) (i : Instr), decode (.word cmd) = .ok i → encode i = .word cmd) ∧
  ∀ (uop : BitVec 4) (operands : CallOperands) (i : Instr), decode (.call uop operands) = .ok i →
    ∃ named : CallOperands, encode i = .call uop named

/-- 30_encoding.md R85: the words that spell no command are those of the three reserved ranges. -/
def Obligations.IllegalWordsAreTheReservedRanges : Prop :=
  ∀ cmd : BitVec 10, (∃ why, decode (.word cmd) = .error why) ↔
    (0x101 ≤ cmd.toNat ∧ cmd.toNat ≤ 0x1FF) ∨ (0x280 ≤ cmd.toNat ∧ cmd.toNat ≤ 0x2FF) ∨
      (0x301 ≤ cmd.toNat ∧ cmd.toNat ≤ 0x3FF)

/-- 30_encoding.md R81 to R85, R87 and 95_test_vectors.md 2.6 on a few words written out bit by bit. -/
def Obligations.SampleWordsDecodeAsTheSpecSays : Prop :=
  decode (.word 0b0001000001#10) = .ok (.byte 0x41#8) ∧
  decode (.word 0b0100000000#10) = .ok .eos ∧
  decode (.word 0b1000001100#10) = .ok (.start 12#6 .boundedReset) ∧
  decode (.word 0b1001100000#10) = .ok (.start 32#6 .growthOnly) ∧
  decode (.word 0b1100000000#10) = .ok .ioerr ∧
  decode (.word 0b1010001100#10) = .error .startReservedBit ∧
  decodeTableWord 8 0b0101 = some .cwResetDue ∧
  decodeTableWord 8 0b0111 = some .bpFlush

/-- 00_scope.md R11, 30_encoding.md R86: a step takes the oldest request off the queue and executes the instruction it
decodes to. (The queue is the model's own: log entry 6.) -/
def Obligations.StepExecutesTheDecodedInstruction : Prop :=
  ∀ (s : State) (r : Request) (later : List Input) (i : Instr),
    s.inputs = .request r :: later → decode r = .ok i → step s = exec i { s with inputs := later }

/-- 70_reset_and_hazards.md R200 "the core waits": with no move of the environment waiting, a step changes nothing. That a
waiting step is a step is the model's choice (log entry 6). -/
def Obligations.StepWithNothingIssuedWaits : Prop :=
  ∀ s : State, s.inputs = [] → step s = .next s

/-- 43_driver.md R149: a word that spells no command raises `PROTOCOL` in any state but `FAILED`; "Nothing else changes"
(`acc` and `prefix` are unspecified in `FAILED`, 60_exceptions.md R179); in `FAILED` it is ignored. (That the word leaves a
queue is the model's own: log entry 6.) -/
def Obligations.IllegalWordRaisesProtocol : Prop :=
  ∀ (s : State) (cmd : BitVec 10) (later : List Input) (why : DecodeReject),
    s.inputs = .request (.word cmd) :: later → decode (.word cmd) = .error why →
    (s.state ≠ .failed → ∃ t, step s = .next t ∧ t = { s with
      state := .failed, err := .protocol, acc := t.acc, pfx := t.pfx, freeCount := t.freeCount, inputs := later }) ∧
    (s.state = .failed → step s = .next { s with inputs := later })

/-- 30_encoding.md R87 "Values 0 and 8 to 15 of `uop` name nothing": a call of such a number is refused by name. -/
def Obligations.UnnamedUopIsRefused : Prop :=
  ∀ (s : State) (uop : BitVec 4) (operands : CallOperands) (later : List Input),
    s.inputs = .request (.call uop operands) :: later → uop.toNat = 0 ∨ 8 ≤ uop.toNat → step s = .refused .unknownUop

/-! ## START and the dispatch table -/

/-- 70_reset_and_hazards.md R201: what an accepted `START` leaves. `prefix` is unspecified, and nothing is said of it. -/
def Obligations.AcceptedStartConstructsTheRun : Prop :=
  ∀ (s : State) (mw : BitVec 6) (pol : Policy),
    s.state = .idle ∨ s.state = .done ∨ s.state = .failed → 9 ≤ mw.toNat → mw.toNat ≤ 32 →
    ∃ t, exec (.start mw pol) s = .next t ∧ HoldsOnlySingletons t.dict ∧ width t = 8 ∧ t = { s with
      maxWidth := mw, policy := pol, state := .awaitFirstByte, err := .none, pfx := t.pfx, dict := t.dict,
      lastAssignedCode := 255#32, acc := [], out := [], nIn := 0, codes := [], nResets := 0, flushed := t.flushed,
      freeCount := t.freeCount }

/-- 43_driver.md R142, 60_exceptions.md R177: a `START` with `mw` out of range writes `cfg`, empties `out` and `acc`, raises
`CONFIG` and initialises nothing else. That `acc` stays empty in `FAILED` is the model's reading (log entry 5). -/
def Obligations.RejectedStartRaisesConfig : Prop :=
  ∀ (s : State) (mw : BitVec 6) (pol : Policy),
    s.state = .idle ∨ s.state = .done ∨ s.state = .failed → mw.toNat < 9 ∨ 32 < mw.toNat →
    ∃ t, exec (.start mw pol) s = .next t ∧ t = { s with
      maxWidth := mw, policy := pol, state := .failed, err := .config, pfx := t.pfx, acc := [], out := [], nIn := 0,
      codes := [], nResets := 0, flushed := false, freeCount := t.freeCount }

/-- 60_exceptions.md R171: outside [9,32] construction fails with `CONFIG` and no output, inside it succeeds, and no other
instruction raises `CONFIG`. -/
def Obligations.ConfigErrorComesFromStartAlone : Prop :=
  (∀ (s : State) (mw : BitVec 6) (pol : Policy), s.state = .idle ∨ s.state = .done ∨ s.state = .failed →
    ∃ t, exec (.start mw pol) s = .next t ∧ t.out = [] ∧
      (mw.toNat < 9 ∨ 32 < mw.toNat → t.state = .failed ∧ t.err = .config) ∧
      (9 ≤ mw.toNat ∧ mw.toNat ≤ 32 → t.state = .awaitFirstByte ∧ t.err = .none)) ∧
  ∀ (i : Instr) (s t : State), exec i s = .next t → t.err = .config →
    s.err = .config ∨ ∃ mw pol, i = .start mw pol

/-- 43_driver.md R150: a legal command in a state that does not take it raises `PROTOCOL`, and nothing else changes
(`acc` and `prefix` are unspecified in `FAILED`, 60_exceptions.md R179). -/
def Obligations.MisplacedCommandRaisesProtocol : Prop :=
  ∀ (s : State) (i : Instr),
    ((s.state = .idle ∨ s.state = .done) ∧ ((∃ c, i = .byte c) ∨ i = .eos ∨ i = .ioerr)) ∨
      ((s.state = .awaitFirstByte ∨ s.state = .matching) ∧ ∃ mw pol, i = .start mw pol) →
    ∃ t, exec i s = .next t ∧ t = { s with
      state := .failed, err := .protocol, acc := t.acc, pfx := t.pfx, freeCount := t.freeCount }

/-- 43_driver.md R151: in `FAILED` every command but `START`, and every illegal word, changes nothing (the word is taken off
the queue), and only a `START` or a hardware reset (or the model-level seeded construction, 60_exceptions.md R186) leaves
`FAILED`. (The queue is the model's own: log entry 6.) -/
def Obligations.FailedIgnoresAllButStart : Prop :=
  (∀ (s : State) (i : Instr), s.state = .failed → ((∃ c, i = .byte c) ∨ i = .eos ∨ i = .ioerr) →
    exec i s = .next s) ∧
  (∀ (s : State) (cmd : BitVec 10) (later : List Input) (why : DecodeReject), s.state = .failed →
    s.inputs = .request (.word cmd) :: later → decode (.word cmd) = .error why →
    step s = .next { s with inputs := later }) ∧
  ∀ s t : State, s.state = .failed → step s = .next t → t.state ≠ .failed →
    ∃ x later, s.inputs = x :: later ∧ (x = .hardReset ∨ (∃ mw pol, x = .request (encode (.start mw pol))) ∨
      ∃ mw pol dict0 last0, x = .startSeeded mw pol dict0 last0)

/-! ## BYTE -/

/-- 43_driver.md R143: the first byte becomes the prefix; no lookup, no output. -/
def Obligations.FirstByteBecomesThePrefix : Prop :=
  ∀ (s : State) (c : Byte), s.state = .awaitFirstByte →
    exec (.byte c) s = .next { s with pfx := [c], nIn := s.nIn + 1, state := .matching }

/-- 43_driver.md R144: a hit extends the prefix and does nothing else. -/
def Obligations.ByteHitExtendsThePrefix : Prop :=
  ∀ (s : State) (c : Byte) (p : Code), s.state = .matching → memReadDict s.dict (s.pfx ++ [c]) = some p →
    exec (.byte c) s = .next { s with pfx := s.pfx ++ [c], nIn := s.nIn + 1 }

/-- 43_driver.md R145, the insertion arm: the prefix's code is emitted at the width before the insertion, the candidate gets
the next code, every other key reads as before, and matching restarts from the byte. -/
def Obligations.ByteMissEmitsThenInserts : Prop :=
  ∀ (s : State) (c : Byte) (p : Code), Inv s → s.state = .matching →
    memReadDict s.dict (s.pfx ++ [c]) = none → memReadDict s.dict s.pfx = some p →
    (s.policy = .boundedReset → s.lastAssignedCode.toNat + 1 < 2 ^ s.maxWidth.toNat) →
    (s.policy = .growthOnly → s.lastAssignedCode.toNat + 1 < 2 ^ 32) →
    ∃ t, exec (.byte c) s = .next t ∧ AppendsCode p.toNat (width s) s t ∧
      t.lastAssignedCode.toNat = s.lastAssignedCode.toNat + 1 ∧
      (∀ key, memReadDict t.dict key =
        if key = s.pfx ++ [c] then some t.lastAssignedCode else memReadDict s.dict key) ∧
      t = { s with out := t.out, acc := t.acc, codes := t.codes, dict := t.dict,
                   lastAssignedCode := t.lastAssignedCode, pfx := [c], nIn := s.nIn + 1 }

/-- 41_code_width.md R123 (with 43_driver.md R145, 90_conflicts.md C2, C3): at a full counter under `BOUNDED_RESET` the code
is emitted at the old width, the dictionary resets, the candidate is dropped, the width is 8 and the next code is 256. -/
def Obligations.ByteMissAtFullCounterResets : Prop :=
  ∀ (s : State) (c : Byte) (p : Code), Inv s → s.state = .matching →
    memReadDict s.dict (s.pfx ++ [c]) = none → memReadDict s.dict s.pfx = some p →
    s.policy = .boundedReset → 2 ^ s.maxWidth.toNat ≤ s.lastAssignedCode.toNat + 1 →
    ∃ t, exec (.byte c) s = .next t ∧ AppendsCode p.toNat (width s) s t ∧ HoldsOnlySingletons t.dict ∧
      memReadDict t.dict (s.pfx ++ [c]) = none ∧ width t = 8 ∧ nextCode t = 256 ∧
      t = { s with out := t.out, acc := t.acc, codes := t.codes, dict := t.dict, lastAssignedCode := 255#32,
                   nResets := s.nResets + 1, pfx := [c], nIn := s.nIn + 1 }

/-- 41_code_width.md R122: under `GROWTH_ONLY` with the counter at its top, a miss emits the prefix's code as usual and then
raises `CAPACITY`; dictionary and counter are untouched. -/
def Obligations.ByteMissAtTheTopRaisesCapacity : Prop :=
  ∀ (s : State) (c : Byte) (p : Code), Inv s → s.state = .matching →
    memReadDict s.dict (s.pfx ++ [c]) = none → memReadDict s.dict s.pfx = some p →
    s.policy = .growthOnly → s.lastAssignedCode.toNat = 2 ^ 32 - 1 →
    ∃ t u, exec (.byte c) s = .next t ∧ AppendsCode p.toNat (width s) s u ∧ t.out = u.out ∧
      t = { s with state := .failed, err := .capacity, out := t.out, acc := t.acc, pfx := t.pfx,
                   codes := s.codes ++ [⟨p.toNat, width s⟩], nIn := s.nIn + 1, freeCount := t.freeCount }

/-- 60_exceptions.md R174: where `prefix` is looked up to emit and is absent, `INTERNAL` is raised by `BYTE` (on a miss) and
by `EOS`; nothing is emitted and nothing inserted; its code is 4, `IO`'s is 3. -/
def Obligations.AbsentPrefixAtEmissionRaisesInternal : Prop :=
  (∀ (s : State) (c : Byte), s.state = .matching → memReadDict s.dict (s.pfx ++ [c]) = none →
    memReadDict s.dict s.pfx = none →
    ∃ t, exec (.byte c) s = .next t ∧ t = { s with state := .failed, err := .internal, acc := t.acc, pfx := t.pfx,
                                                   nIn := s.nIn + 1, freeCount := t.freeCount }) ∧
  (∀ s : State, s.state = .matching → memReadDict s.dict s.pfx = none →
    ∃ t, exec .eos s = .next t ∧ t = { s with state := .failed, err := .internal, acc := t.acc, pfx := t.pfx,
                                              freeCount := t.freeCount }) ∧
  errBits .internal = 4#3 ∧ errBits .io = 3#3

/-- 43_driver.md R154: at a miss `BYTE` emits the code of `prefix`, in the stream (`AppendsCode`) and in the ghost list, and
`prefix` is the longest key of the dictionary that begins the input from where the last emission ended (the prefix, the byte,
whatever follows). -/
def Obligations.EmittedPrefixIsTheLongestMatch : Prop :=
  ∀ (s : State) (c : Byte) (more : List Byte), Inv s → s.state = .matching →
    memReadDict s.dict (s.pfx ++ [c]) = none →
    ∃ (p : Code) (t u : State), memReadDict s.dict s.pfx = some p ∧ exec (.byte c) s = .next t ∧
      AppendsCode p.toNat (width s) s u ∧ t.out = u.out ∧ t.codes = s.codes ++ [⟨p.toNat, width s⟩] ∧
      s.pfx <+: s.pfx ++ c :: more ∧
      ∀ key : Key, key <+: s.pfx ++ c :: more → memReadDict s.dict key ≠ none → key.length ≤ s.pfx.length

/-- 20_memory.md R65: what one `BYTE` wrote to the dictionary is what the next lookup sees, an insertion and a reset
alike. -/
def Obligations.NextLookupSeesTheLastWrite : Prop :=
  ∀ (s t : State) (c : Byte), Inv s → s.state = .matching → memReadDict s.dict (s.pfx ++ [c]) = none →
    exec (.byte c) s = .next t → t.state = .matching →
    (t.nResets = s.nResets →
      exec (.dictLookup (s.pfx ++ [c])) t = .next { t with answer := .code (some t.lastAssignedCode) }) ∧
    (t.nResets ≠ s.nResets → ∀ key : Key, key.length ≠ 1 →
      exec (.dictLookup key) t = .next { t with answer := .code none })

/-! ## EOS and IOERR -/

/-- 43_driver.md R146: `EOS` in `MATCHING` emits the final code, flushes and finishes; dictionary and counter are not
touched; an absent prefix raises `INTERNAL`. Nothing is said of `prefix` in `DONE`, which is unspecified (10_state.md R25;
log entry 22). -/
def Obligations.EosEmitsFlushesAndFinishes : Prop :=
  ∀ s : State, s.state = .matching →
    (memReadDict s.dict s.pfx = none → ∃ t, exec .eos s = .next t ∧
      t = { s with state := .failed, err := .internal, acc := t.acc, pfx := t.pfx, freeCount := t.freeCount }) ∧
    ∀ p : Code, Inv s → memReadDict s.dict s.pfx = some p →
      ∃ t, exec .eos s = .next t ∧
        sinkBits t.out =
          sinkBits s.out ++ s.acc ++ bitstr (width s) p.toNat ++ padBits (s.acc.length + width s) ∧
        t = { s with state := .done, out := t.out, acc := [], codes := s.codes ++ [⟨p.toNat, width s⟩],
                     pfx := t.pfx, flushed := t.flushed, freeCount := t.freeCount }

/-- 43_driver.md R147: `EOS` with no byte before it raises `INPUT`; nothing is emitted, and `out` is empty. -/
def Obligations.EosOnEmptySourceRaisesInput : Prop :=
  ∀ s : State, s.state = .awaitFirstByte →
    ∃ t, exec .eos s = .next t ∧ (Inv s → t.out = []) ∧
      t = { s with state := .failed, err := .input, acc := t.acc, pfx := t.pfx, freeCount := t.freeCount }

/-- 43_driver.md R148: `IOERR` in a run raises `IO`; `out` keeps every byte, nothing is flushed, nothing is rolled back. -/
def Obligations.IoerrRaisesIoAndKeepsTheOutput : Prop :=
  ∀ s : State, s.state = .awaitFirstByte ∨ s.state = .matching →
    ∃ t, exec .ioerr s = .next t ∧
      t = { s with state := .failed, err := .io, acc := t.acc, pfx := t.pfx, freeCount := t.freeCount }

/-- 60_exceptions.md R178: what an error leaves in `out`, for every error kind. Only `INPUT` needs the invariant, which says
that `out` is empty before the first byte. -/
def Obligations.ErrorsLeaveTheOutputOfEarlierCommands : Prop :=
  ∀ (s t : State) (i : Instr), s.state ≠ .failed → exec i s = .next t → t.state = .failed →
    (t.err = .config → t.out = []) ∧
    (t.err = .input → t.out = s.out ∧ (Inv s → t.out = [])) ∧
    (t.err = .io ∨ t.err = .internal ∨ t.err = .protocol → t.out = s.out) ∧
    (t.err = .capacity → ∃ (p : Code) (u : State), memReadDict s.dict s.pfx = some p ∧
      AppendsCode p.toNat (width s) s u ∧ t.out = u.out)

/-! ## Dictionary Manager -/

/-- 40_dictionary.md R100: `DICT.LOOKUP` answers the code of the entry whose key is exactly `key`, else absent; a one-byte
key of a run's dictionary answers its byte; nothing of the core's state is written. (That the answer stands in the field
`answer` is the model's choice, log entry 8.) -/
def Obligations.LookupAnswersTheExactMatch : Prop :=
  ∀ (s : State) (key : Key), Sound s →
    ∃ a : Option Code, exec (.dictLookup key) s = .next { s with answer := .code a } ∧
      (∀ c, a = some c ↔ ⟨key, c⟩ ∈ s.dict) ∧ (a = none ↔ ∀ e ∈ s.dict, e.key ≠ key) ∧
      (DictInv s.dict s.lastAssignedCode → ∀ b : Byte, key = [b] → a = some (b.setWidth 32))

/-- 40_dictionary.md R101: under its preconditions `DICT.INSERT` adds the entry and advances the counter; every other key
reads as before. (That no entry holds the code already is 10_state.md R34 D2; where one does the model refuses, log entry
10.) -/
def Obligations.InsertAddsTheEntry : Prop :=
  ∀ (s : State) (key : Key) (code : Nat), key ≠ [] → memReadDict s.dict key = none →
    code = s.lastAssignedCode.toNat + 1 → code < 2 ^ 32 → (∀ e ∈ s.dict, e.code.toNat ≠ code) →
    ∃ t, exec (.dictInsert key code) s = .next t ∧ t.lastAssignedCode.toNat = code ∧
      t.dict.length = s.dict.length + 1 ∧
      (∀ k, memReadDict t.dict k = if k = key then some t.lastAssignedCode else memReadDict s.dict k) ∧
      t = { s with dict := t.dict, lastAssignedCode := t.lastAssignedCode }

/-- 93_implementation_defined.md U1, U3, U5, U10: a `DICT.INSERT` that breaks a precondition or meets its code in use is
refused and a 33-bit code faults; neither an overwrite nor a no-op (the names are the model's, log entries 10 and 11). -/
def Obligations.InsertOutsideItsPreconditionsStops : Prop :=
  ∀ (s : State) (key : Key) (code : Nat),
    exec (.dictInsert [] code) s = .refused .emptyKey ∧
    (key ≠ [] → memReadDict s.dict key ≠ none ∨ code ≠ s.lastAssignedCode.toNat + 1 →
      exec (.dictInsert key code) s = .refused .insertPrecondition) ∧
    (key ≠ [] → memReadDict s.dict key = none → s.lastAssignedCode.toNat = 2 ^ 32 - 1 →
      exec (.dictInsert key (2 ^ 32)) s = .fault .codeOverflow) ∧
    (key ≠ [] → memReadDict s.dict key = none → code = s.lastAssignedCode.toNat + 1 → code < 2 ^ 32 →
      (∃ e ∈ s.dict, e.code.toNat = code) → exec (.dictInsert key code) s = .refused .codeCollision)

/-- 40_dictionary.md R102: `DICT.RESET` leaves exactly the 256 singletons, the counter at 255 and the width at 8, and
touches nothing else. -/
def Obligations.DictResetRestoresTheSingletons : Prop :=
  ∀ s : State, ∃ t, exec .dictReset s = .next t ∧ HoldsOnlySingletons t.dict ∧ width t = 8 ∧
    t = { s with dict := t.dict, lastAssignedCode := 255#32 }

/-- 40_dictionary.md R104: no instruction deletes an entry or replaces its code, but by a full reset; between resets the
store grows by at most one entry an instruction. -/
def Obligations.EntriesLeaveOnlyByFullReset : Prop :=
  ∀ (i : Instr) (s t : State), exec i s = .next t →
    HoldsOnlySingletons t.dict ∨
    ((∀ key c, memReadDict s.dict key = some c → memReadDict t.dict key = some c) ∧
      (t.dict.length = s.dict.length ∨ t.dict.length = s.dict.length + 1))

/-! ## Code-Width Tracker -/

/-- 00_scope.md R9: what `bit_length` and `bitstr` are (`bit_length(0) = 0` is the spec's general knowledge, G1). -/
def Obligations.BitLengthAndBitstrAreAsDefined : Prop :=
  bitLength 0 = 0 ∧
  (∀ n k : Nat, 1 ≤ n → 1 ≤ k → (bitLength n = k ↔ 2 ^ (k - 1) ≤ n ∧ n < 2 ^ k)) ∧
  ∀ w v : Nat, (bitstr w v).length = w ∧ ∀ i, i < w → (bitstr w v)[i]? = some (v.testBit (w - 1 - i))

/-- 41_code_width.md R115: `CW.WIDTH` answers the least width of at least 8 that holds the counter, and writes nothing of
the core's state. -/
def Obligations.WidthIsTheClampedBitLength : Prop :=
  ∀ s : State, ∃ w : Nat, exec .cwWidth s = .next { s with answer := .width w } ∧
    8 ≤ w ∧ w ≤ 32 ∧ s.lastAssignedCode.toNat < 2 ^ w ∧ (8 < w → 2 ^ (w - 1) ≤ s.lastAssignedCode.toNat)

/-- 41_code_width.md R116: `CW.RESET_DUE` is false under `GROWTH_ONLY`, else it says whether the next code needs more than
`max_width` bits, computed in 33 bits; it writes nothing of the core's state. -/
def Obligations.ResetDueComparesTheNextCode : Prop :=
  ∀ s : State, ∃ b : Bool, exec .cwResetDue s = .next { s with answer := .resetDue b } ∧
    (b = true ↔ s.policy = .boundedReset ∧ 2 ^ s.maxWidth.toNat ≤ s.lastAssignedCode.toNat + 1)

/-- 41_code_width.md R118: an instruction leaves the counter, or resets it and with it the width, or advances it by one; then
the width rises by at most one, exactly when the new counter is a power of two. Above the clamp (every run begun by
`START`) the width is the counter's bit length. -/
def Obligations.WidthFallsOnlyByReset : Prop :=
  ∀ (i : Instr) (s t : State), exec i s = .next t →
    (128 ≤ t.lastAssignedCode.toNat → width t = bitLength t.lastAssignedCode.toNat) ∧
    ((t.lastAssignedCode = s.lastAssignedCode ∧ width t = width s) ∨
    (t.lastAssignedCode = 255#32 ∧ width t = 8 ∧ HoldsOnlySingletons t.dict) ∨
    (t.lastAssignedCode.toNat = s.lastAssignedCode.toNat + 1 ∧
      (width t = width s ∨ width t = width s + 1) ∧
      (width t = width s + 1 ↔ ∃ k, 8 ≤ k ∧ t.lastAssignedCode.toNat = 2 ^ k)))

/-- 41_code_width.md R119, 10_state.md R34 W1: in a run the width is the counter's bit length, at least 8 and at most 32,
and under `BOUNDED_RESET` at most `max_width`. -/
def Obligations.WidthStaysInTheConfiguredRange : Prop :=
  ∀ s : State, Inv s → inRun s = true →
    width s = bitLength s.lastAssignedCode.toNat ∧ 8 ≤ width s ∧ width s ≤ 32 ∧
      (s.policy = .boundedReset → width s ≤ s.maxWidth.toNat ∧ s.maxWidth.toNat ≤ 32)

/-- 41_code_width.md R120: under `GROWTH_ONLY` `cfg.max_width` has no effect but on the check of `START`. -/
def Obligations.GrowthOnlyIgnoresMaxWidth : Prop :=
  ∀ (i : Instr) (s t : State) (mw : BitVec 6), s.policy = .growthOnly → (∀ m pol, i ≠ .start m pol) →
    exec i s = .next t → exec i { s with maxWidth := mw } = .next { t with maxWidth := mw }

/-! ## Bit Packer -/

/-- 42_bit_packer.md R125, R126: `BP.APPEND` puts `bitstr_width(code)` behind the bits held, moves every whole byte to
`out`, and keeps the rest; all bits keep their order. -/
def Obligations.AppendPacksTheCode : Prop :=
  ∀ (s : State) (code w : Nat), 8 ≤ w → w ≤ 32 → code < 2 ^ w → s.flushed = false →
    ∃ t, exec (.bpAppend code w) s = .next t ∧
      sinkBits t.out ++ t.acc = sinkBits s.out ++ s.acc ++ bitstr w code ∧
      t.acc.length = (s.acc.length + w) % 8 ∧ s.out <+: t.out ∧
      t.out.length = s.out.length + (s.acc.length + w) / 8 ∧
      t = { s with out := t.out, acc := t.acc, codes := s.codes ++ [⟨code, w⟩] }

/-- 42_bit_packer.md R127: `BP.FLUSH` completes a last byte with zero bits if any bits remain, else emits nothing. (Nothing
is said of the model's own mark that the packer is then closed, log entry 13.) -/
def Obligations.FlushPadsTheLastByte : Prop :=
  ∀ s : State, s.flushed = false → s.acc.length ≤ 7 →
    ∃ t, exec .bpFlush s = .next t ∧
      (s.acc = [] → t.out = s.out) ∧
      (s.acc ≠ [] → ∃ b : Byte, t.out = s.out ++ [b] ∧
        bitsOfByte b = s.acc ++ List.replicate (8 - s.acc.length) false) ∧
      t = { s with out := t.out, acc := [], flushed := t.flushed }

/-- 93_implementation_defined.md U2, U4, 42_bit_packer.md R127: the packer refuses operands out of range, every call after
the flush and a flush of more than 7 bits (the names are the model's, log entries 12, 13 and 14). -/
def Obligations.PackerOutsideItsPreconditionsStops : Prop :=
  ∀ (s : State) (code w : Nat),
    (w < 8 ∨ 32 < w ∨ 2 ^ w ≤ code → exec (.bpAppend code w) s = .refused .appendOutOfRange) ∧
    (8 ≤ w → w ≤ 32 → code < 2 ^ w → s.flushed = true → exec (.bpAppend code w) s = .refused .packerFlushed) ∧
    (s.flushed = true → exec .bpFlush s = .refused .packerFlushed) ∧
    (s.flushed = false → 8 ≤ s.acc.length → exec .bpFlush s = .refused .accOverfull)

/-- 42_bit_packer.md R131, 30_encoding.md R79: while the stream is open `8 * len(out) + len(acc)` is the sum of the widths
and every appended bit stands, in order, in `out` or in `acc`; in `DONE` the output is that sum rounded up to whole bytes,
and the extra bits are zeros at its end. -/
def Obligations.AppendedBitsAreConserved : Prop :=
  ∀ s : State, Inv s →
    (s.state = .awaitFirstByte ∨ s.state = .matching →
      8 * s.out.length + s.acc.length = (s.codes.map fun e => e.width).sum ∧
      sinkBits s.out ++ s.acc = codeBits s.codes) ∧
    (s.state = .done →
      s.out.length = ((s.codes.map fun e => e.width).sum + 7) / 8 ∧
      ∃ n, n ≤ 7 ∧ sinkBits s.out = codeBits s.codes ++ List.replicate n false)

/-- 42_bit_packer.md R130: the numeric form of the accumulator, on at most 39 bits, is equal to the bit-sequence form: append,
the whole drain, and the flush byte. -/
def Obligations.NumericAccumulatorEqualsBitSequence : Prop :=
  (∀ (s : State) (code w : Nat), 8 ≤ w → w ≤ 32 → code < 2 ^ w → s.flushed = false → s.acc.length ≤ 7 →
    ∃ t, exec (.bpAppend code w) s = .next t ∧
      t.out = s.out ++ (numericDrain ((s.acc.length + w) / 8) (numericAppend code w (numericOf s.acc))).1 ∧
      numericOf t.acc = (numericDrain ((s.acc.length + w) / 8) (numericAppend code w (numericOf s.acc))).2 ∧
      (numericAppend code w (numericOf s.acc)).accLen ≤ 39 ∧
      (numericAppend code w (numericOf s.acc)).accVal < 2 ^ (numericAppend code w (numericOf s.acc)).accLen) ∧
  ∀ s : State, s.flushed = false → 1 ≤ s.acc.length → s.acc.length ≤ 7 →
    ∃ t, exec .bpFlush s = .next t ∧ t.out = s.out ++ [numericFlushByte (numericOf s.acc)]

/-! ## The whole machine -/

/-- 70_reset_and_hazards.md R200: after reset, and after the reset input in any state, `state` is `IDLE`, `err` is `NONE`
and `out` is empty; nothing is said of the rest. -/
def Obligations.HardwareResetIdlesTheCore : Prop :=
  (State.reset.state = .idle ∧ State.reset.err = .none ∧ State.reset.out = []) ∧
  ∀ (s : State) (later : List Input), s.inputs = .hardReset :: later →
    ∃ t, step s = .next t ∧ t.state = .idle ∧ t.err = .none ∧ t.out = []

/-- The invariant holds at reset. -/
def Obligations.InvariantHoldsAtReset : Prop := Inv State.reset

/-- Every step, a component call among them, leaves a sound state: the dictionary a map in canonical form, `acc` 0 to 7 bits
and `prefix` non-empty (10_state.md R20, R25, R26, R29), `err` `NONE` exactly outside `FAILED` (10_state.md R24). -/
def Obligations.EveryStepKeepsTheStateSound : Prop :=
  ∀ s t : State, Sound s → step s = .next t → Sound t

/-- 10_state.md R34: its invariants D1, D2, D4, D5, P1, A1, B1 (and the stream of 30_encoding.md R75 in `DONE`) survive
every step in which the environment makes one of its moves, and every waiting step. -/
def Obligations.EnvironmentMovesKeepTheInvariant : Prop :=
  ∀ s t : State, Inv s → (∀ x ∈ s.inputs.head?, EnvironmentMove x) → step s = .next t → Inv t

/-- 30_encoding.md R77: in every run begun by `START` the width of the `k`-th code is the function of `k` and the
configuration that the rule gives, whatever the data. -/
def Obligations.PortMovesKeepTheWidthSequence : Prop :=
  ∀ s t : State, Inv s → (inRun s = true → WidthInv s) → (∀ x ∈ s.inputs.head?, PortMove x) → step s = .next t →
    inRun t = true → WidthInv t

/-- 43_driver.md R141, 70_reset_and_hazards.md R213: "Every command in every state has exactly one outcome": no move of the
environment stops the machine. -/
def Obligations.EnvironmentMovesNeverStop : Prop :=
  ∀ s : State, Inv s → (∀ x ∈ s.inputs.head?, EnvironmentMove x) → ∃ t, step s = .next t

/-- 60_exceptions.md R186: seeded construction is `START` with the seed in place of the singletons, and a well-formed seed
establishes the invariant. (Which seeds are taken is log entry 17, the queue log entry 6.) -/
def Obligations.SeededConstructionPlacesTheSeed : Prop :=
  ∀ (s : State) (mw : BitVec 6) (pol : Policy) (dict0 : Dict) (last0 : Code) (later : List Input),
    s.inputs = .startSeeded mw pol dict0 last0 :: later → s.state = .idle ∨ s.state = .done ∨ s.state = .failed →
    9 ≤ mw.toNat → mw.toNat ≤ 32 → dictWf dict0 = true → (∀ e ∈ dict0, e.code.toNat ≤ last0.toNat) →
    ∃ t, step s = .next t ∧ (SeedWellFormed mw pol dict0 last0 → Inv t) ∧ t = { s with
      maxWidth := mw, policy := pol, state := .awaitFirstByte, err := .none, pfx := t.pfx, dict := dict0,
      lastAssignedCode := last0, acc := [], out := [], nIn := 0, codes := [], nResets := 0, flushed := false,
      freeCount := t.freeCount, inputs := later }

/-- 20_memory.md R52, R58, 43_driver.md R155: bytes already in `out` are never changed or removed by `BYTE`, `EOS` or
`IOERR`; a `BYTE` adds at most 4 bytes, an `EOS` at most 5, an `IOERR` none; each code emitted brings at least one byte. -/
def Obligations.OutputGrowsByAFewBytes : Prop :=
  ∀ (s t : State) (i : Instr), Inv s → exec i s = .next t → ((∃ c, i = .byte c) ∨ i = .eos ∨ i = .ioerr) →
    ∃ bytes : List Byte, t.out = s.out ++ bytes ∧ bytes.length ≤ 5 ∧
      ((∃ c, i = .byte c) → bytes.length ≤ 4) ∧ (i = .ioerr → bytes = []) ∧
      (t.codes = s.codes → bytes = []) ∧ (t.codes ≠ s.codes → bytes ≠ [])

/-- 10_state.md R20, the column "Owner (only writer)", R21 and R22: `cfg` is written by `START` alone, the dictionary and its
counter by `BYTE`, `START` and the Dictionary Manager, `acc` and `out` by commands and the Bit Packer, `state`, `err` and
`prefix` by commands. The last clause, that no instruction touches the queue of the environment's moves, is no rule of the spec:
the queue is the model's choice (log entry 6). -/
def Obligations.OnlyTheOwnerWrites : Prop :=
  ∀ (i : Instr) (s t : State), exec i s = .next t →
    ((t.maxWidth = s.maxWidth ∧ t.policy = s.policy) ∨
      ∃ mw pol, i = .start mw pol ∧ t.maxWidth = mw ∧ t.policy = pol) ∧
    ((t.dict = s.dict ∧ t.lastAssignedCode = s.lastAssignedCode) ∨ (∃ c, i = .byte c) ∨ (∃ mw pol, i = .start mw pol) ∨
      (∃ key code, i = .dictInsert key code) ∨ i = .dictReset) ∧
    ((t.acc = s.acc ∧ t.out = s.out ∧ t.codes = s.codes) ∨ (∃ c, i = .byte c) ∨ i = .eos ∨ i = .ioerr ∨
      (∃ mw pol, i = .start mw pol) ∨ (∃ code w, i = .bpAppend code w) ∨ i = .bpFlush) ∧
    ((t.state = s.state ∧ t.err = s.err ∧ t.pfx = s.pfx) ∨ (∃ c, i = .byte c) ∨ i = .eos ∨ i = .ioerr ∨
      ∃ mw pol, i = .start mw pol) ∧
    t.inputs = s.inputs

/-- 43_driver.md R156, 70_reset_and_hazards.md R211, 30_encoding.md R75: `ENCODE` of any non-empty source, from any state in
which a run may begin, reaches `DONE` after `m + 2` commands with a non-empty output that is the emitted codes' bits and
zero padding; `1 <= e <= m` codes. The moves queued behind the run are left waiting (the queue is the model's own: log
entry 6). (Under `GROWTH_ONLY` the source is short of 2^32 - 256 bytes, so the counter cannot
fill.) -/
def Obligations.EncodingTerminatesWithTheWholeStream : Prop :=
  ∀ (s : State) (mw : BitVec 6) (pol : Policy) (data : List Byte) (later : List Input),
    s.state = .idle ∨ s.state = .done ∨ s.state = .failed → 9 ≤ mw.toNat → mw.toNat ≤ 32 → data ≠ [] →
    (pol = .growthOnly → data.length < 2 ^ 32 - 256) →
    s.inputs = commandInputs (encodeCommands mw pol data) ++ later →
    ∃ t : State, Host.Core.run Sys2Proof.core (data.length + 2) s = .next t ∧ t.state = .done ∧ t.err = .none ∧
      t.inputs = later ∧ t.nIn = data.length ∧ 1 ≤ t.codes.length ∧ t.codes.length ≤ data.length ∧ t.out ≠ [] ∧
      sinkBits t.out = codeBits t.codes ++ padBits (codeBits t.codes).length

/-- A step takes the oldest waiting move off the queue and leaves every later one waiting, whatever the move is, a hardware
reset among them. The queue, and that the moves behind a reset stay, are the model's choice (log entries 6 and 20). -/
def Obligations.StepTakesTheOldestMoveAlone : Prop :=
  ∀ s t : State, step s = .next t → t.inputs = s.inputs.tail
end

