-- ==== Sys2Proof/Laws/Bits.lean ====
section
/-! SUPPORT. Laws of `bit_length`, `bitstr` and bytes as bit sequences (00_scope.md R9, 20_memory.md R54 to R56). -/

namespace Sys2Proof

theorem bitLength_zero : bitLength 0 = 0 := rfl

/-- `bit_length(n)` is at most `k` exactly when `n` is written in `k` bits. -/
theorem bitLength_le_iff (n k : Nat) : bitLength n ≤ k ↔ n < 2 ^ k := by
  unfold bitLength
  split
  · next h => simp [h]
  · next h => rw [Nat.succ_le_iff, Nat.log2_lt h]

theorem lt_bitLength_iff (n k : Nat) : k < bitLength n ↔ 2 ^ k ≤ n := by
  rw [← not_le, bitLength_le_iff, not_lt]

theorem lt_two_pow_bitLength (n : Nat) : n < 2 ^ bitLength n := (bitLength_le_iff n _).1 le_rfl

theorem bitLength_mono {m n : Nat} (h : m ≤ n) : bitLength m ≤ bitLength n :=
  (bitLength_le_iff m _).2 (lt_of_le_of_lt h (lt_two_pow_bitLength n))

theorem bitLength_code (c : Code) : bitLength c.toNat ≤ 32 := (bitLength_le_iff _ _).2 c.isLt

@[simp] theorem length_bitstr (w v : Nat) : (bitstr w v).length = w := by
  induction w with
  | zero => rfl
  | succ w ih => simp [bitstr, ih]

/-- Element `i` of `bitstr_W(v)` is `v[W-1-i]` (00_scope.md R9). -/
theorem getElem_bitstr (w v i : Nat) (h : i < (bitstr w v).length) :
    (bitstr w v)[i] = v.testBit (w - 1 - i) := by
  induction w generalizing i with
  | zero => simp [bitstr] at h
  | succ w ih =>
    cases i with
    | zero => simp [bitstr]
    | succ i =>
      simp only [bitstr, List.getElem_cons_succ]
      rw [ih]
      congr 1
      omega

theorem natOfBits_foldl (bits : Bits) (n : Nat) :
    bits.foldl (fun n b => 2 * n + b.toNat) n = n * 2 ^ bits.length + natOfBits bits := by
  unfold natOfBits
  induction bits generalizing n with
  | nil => simp
  | cons b bits ih =>
    simp only [List.foldl_cons, List.length_cons]
    rw [ih, ih (2 * 0 + b.toNat)]
    ring

@[simp] theorem natOfBits_nil : natOfBits [] = 0 := rfl

theorem natOfBits_cons (b : Bool) (bits : Bits) :
    natOfBits (b :: bits) = b.toNat * 2 ^ bits.length + natOfBits bits := by
  rw [natOfBits, List.foldl_cons, natOfBits_foldl]
  simp

theorem natOfBits_append (a b : Bits) : natOfBits (a ++ b) = natOfBits a * 2 ^ b.length + natOfBits b := by
  rw [natOfBits, List.foldl_append, natOfBits_foldl]
  rfl

theorem natOfBits_lt (bits : Bits) : natOfBits bits < 2 ^ bits.length := by
  induction bits with
  | nil => simp
  | cons b bits ih =>
    rw [natOfBits_cons, List.length_cons, pow_succ]
    have : b.toNat ≤ 1 := Bool.toNat_le b
    nlinarith

theorem natOfBits_bitstr (w v : Nat) : natOfBits (bitstr w v) = v % 2 ^ w := by
  induction w with
  | zero => simp [bitstr, Nat.mod_one]
  | succ w ih =>
    rw [bitstr, natOfBits_cons, length_bitstr, ih, Nat.mod_pow_succ, ← Nat.toNat_testBit]
    ring

theorem natOfBits_bitstr_of_lt {w v : Nat} (h : v < 2 ^ w) : natOfBits (bitstr w v) = v := by
  rw [natOfBits_bitstr, Nat.mod_eq_of_lt h]

theorem bitstr_congr {w a b : Nat} (h : a % 2 ^ w = b % 2 ^ w) : bitstr w a = bitstr w b := by
  apply List.ext_getElem (by simp)
  intro i h1 h2
  rw [getElem_bitstr, getElem_bitstr]
  have hi : i < w := by simpa using h1
  have key : ∀ x : Nat, x.testBit (w - 1 - i) = (x % 2 ^ w).testBit (w - 1 - i) := by
    intro x
    rw [Nat.testBit_mod_two_pow]
    simp [show w - 1 - i < w by omega]
  rw [key a, key b, h]

/-- A bit sequence is the `bitstr` of the number it spells. -/
theorem bitstr_natOfBits (bits : Bits) : bitstr bits.length (natOfBits bits) = bits := by
  induction bits with
  | nil => rfl
  | cons b bits ih =>
    have hlt := natOfBits_lt bits
    rw [List.length_cons, bitstr]
    congr 1
    · rw [natOfBits_cons]
      cases b
      · simpa using Nat.testBit_lt_two_pow hlt
      · simp [Nat.testBit_two_pow_add_eq, Nat.testBit_lt_two_pow hlt]
    · conv_rhs => rw [← ih]
      apply bitstr_congr
      rw [natOfBits_cons]
      simp

namespace Machine

@[simp] theorem length_bitsOfByte (b : Byte) : (bitsOfByte b).length = 8 := by simp [bitsOfByte]

/-- A completed byte holds the 8 bits it was read from (20_memory.md R55). -/
theorem bitsOfByte_byteOfBits (bits : Bits) (h : bits.length = 8) : bitsOfByte (byteOfBits bits) = bits := by
  have hlt := natOfBits_lt bits
  rw [h] at hlt
  rw [bitsOfByte, byteOfBits, BitVec.toNat_ofNat, Nat.mod_eq_of_lt hlt, ← h]
  exact bitstr_natOfBits bits

@[simp] theorem sinkBits_nil : sinkBits [] = [] := rfl

@[simp] theorem sinkBits_append (a b : List Byte) : sinkBits (a ++ b) = sinkBits a ++ sinkBits b := by
  simp [sinkBits]

@[simp] theorem sinkBits_singleton (b : Byte) : sinkBits [b] = bitsOfByte b := by simp [sinkBits]

theorem length_sinkBits (out : List Byte) : (sinkBits out).length = 8 * out.length := by
  induction out with
  | nil => rfl
  | cons b out ih =>
    have : sinkBits (b :: out) = bitsOfByte b ++ sinkBits out := by simp [sinkBits]
    rw [this, List.length_append, length_bitsOfByte, ih, List.length_cons]
    omega

@[simp] theorem codeBits_nil : codeBits [] = [] := rfl

@[simp] theorem codeBits_append (a b : List Emission) : codeBits (a ++ b) = codeBits a ++ codeBits b := by
  simp [codeBits]

@[simp] theorem codeBits_singleton (code w : Nat) : codeBits [⟨code, w⟩] = bitstr w code := by simp [codeBits]

end Machine
end Sys2Proof
end

