-- ==== Sys2Proof/Laws/Dict.lean ====
section
/-! SUPPORT. Laws of the dictionary store (20_memory.md R53, 40_dictionary.md R104, R105): read after write, the canonical
form, the singletons, and the dictionary invariant under reset and insertion. -/

namespace Sys2Proof

@[simp] theorem memReadDict_nil (key : Key) : memReadDict [] key = none := rfl

theorem memReadDict_cons (e : Entry) (d : Dict) (key : Key) :
    memReadDict (e :: d) key = if e.key = key then some e.code else memReadDict d key := rfl

theorem memReadDict_eq_none_iff (d : Dict) (key : Key) : memReadDict d key = none ↔ ∀ e ∈ d, e.key ≠ key := by
  induction d with
  | nil => simp
  | cons e d ih =>
    rw [memReadDict_cons]
    split <;> simp_all

/-- What a read answers is an entry of the store. -/
theorem mem_of_memReadDict {d : Dict} {key : Key} {c : Code} (h : memReadDict d key = some c) : ⟨key, c⟩ ∈ d := by
  induction d with
  | nil => simp at h
  | cons e d ih =>
    rw [memReadDict_cons] at h
    split at h
    · next hk =>
      obtain rfl : e.code = c := by simpa using h
      subst hk
      exact List.mem_cons_self
    · exact List.mem_cons_of_mem _ (ih h)

theorem memReadDict_append (a b : Dict) (key : Key) :
    memReadDict (a ++ b) key = (memReadDict a key).or (memReadDict b key) := by
  induction a with
  | nil => simp
  | cons e a ih =>
    rw [List.cons_append, memReadDict_cons, memReadDict_cons, ih]
    split <;> simp

/-- A write leaves every other key alone. -/
theorem memReadDict_memWriteDict_ne (d : Dict) {key k : Key} (code : Code) (h : k ≠ key) :
    memReadDict (memWriteDict d key code) k = memReadDict d k := by
  induction d with
  | nil => simp [memWriteDict, memReadDict_cons, Ne.symm h]
  | cons e d ih =>
    rw [memWriteDict]
    split
    · rw [memReadDict_cons, memReadDict_cons, ih]
    · rw [memReadDict_cons]
      simp [Ne.symm h]

/-- A read after a write of an absent key gives the code written. -/
theorem memReadDict_memWriteDict_self {d : Dict} {key : Key} (code : Code) (h : memReadDict d key = none) :
    memReadDict (memWriteDict d key code) key = some code := by
  induction d with
  | nil => simp [memWriteDict, memReadDict_cons]
  | cons e d ih =>
    rw [memReadDict_cons] at h
    split at h
    · simp at h
    · next hk =>
      rw [memWriteDict]
      split
      · rw [memReadDict_cons, if_neg hk, ih h]
      · simp [memReadDict_cons]

theorem memReadDict_memWriteDict {d : Dict} {key : Key} (code : Code) (h : memReadDict d key = none) (k : Key) :
    memReadDict (memWriteDict d key code) k = if k = key then some code else memReadDict d k := by
  split
  · next hk => rw [hk, memReadDict_memWriteDict_self code h]
  · next hk => rw [memReadDict_memWriteDict_ne d code hk]

@[simp] theorem length_memWriteDict (d : Dict) (key : Key) (code : Code) :
    (memWriteDict d key code).length = d.length + 1 := by
  induction d with
  | nil => rfl
  | cons e d ih =>
    rw [memWriteDict]
    split <;> simp [ih]

theorem mem_memWriteDict (d : Dict) (key : Key) (code : Code) (e : Entry) :
    e ∈ memWriteDict d key code ↔ e = ⟨key, code⟩ ∨ e ∈ d := by
  induction d with
  | nil => simp [memWriteDict]
  | cons x d ih =>
    rw [memWriteDict]
    split
    · simp only [List.mem_cons, ih]
      tauto
    · simp

/-- A code above all others goes to the end. -/
theorem memWriteDict_eq_append {d : Dict} (key : Key) {code : Code} (h : ∀ e ∈ d, e.code.toNat < code.toNat) :
    memWriteDict d key code = d ++ [⟨key, code⟩] := by
  induction d with
  | nil => rfl
  | cons e d ih =>
    rw [memWriteDict, if_pos (h e List.mem_cons_self), ih fun x hx => h x (List.mem_cons_of_mem _ hx)]
    rfl

theorem codeInUse_eq_false_iff (d : Dict) (code : Code) : codeInUse d code = false ↔ ∀ e ∈ d, e.code ≠ code := by
  simp [codeInUse]

/-- The canonical form said with `List.Pairwise`. -/
theorem dictWf_iff (d : Dict) : dictWf d = true ↔
    (∀ e ∈ d, e.key ≠ []) ∧ d.Pairwise (fun x y => x.code.toNat < y.code.toNat ∧ x.key ≠ y.key) := by
  induction d with
  | nil => simp [dictWf]
  | cons e d ih =>
    simp only [dictWf, Bool.and_eq_true, ih, List.pairwise_cons, List.mem_cons, List.all_eq_true, decide_eq_true_eq,
      Bool.not_eq_true', List.isEmpty_eq_false_iff, beq_eq_false_iff_ne]
    constructor
    · rintro ⟨⟨h1, h2⟩, h3, h4⟩
      refine ⟨?_, h2, h4⟩
      rintro x (rfl | hx)
      · exact h1
      · exact h3 x hx
    · rintro ⟨h1, h2, h3⟩
      exact ⟨⟨h1 e (Or.inl rfl), h2⟩, fun x hx => h1 x (Or.inr hx), h3⟩

/-- In canonical form a read answers exactly the entries of the store. -/
theorem memReadDict_eq_some_iff {d : Dict} (hwf : dictWf d = true) (key : Key) (c : Code) :
    memReadDict d key = some c ↔ ⟨key, c⟩ ∈ d := by
  refine ⟨mem_of_memReadDict, ?_⟩
  obtain ⟨-, hp⟩ := (dictWf_iff d).1 hwf
  clear hwf
  induction d with
  | nil => simp
  | cons e d ih =>
    intro hmem
    rw [List.pairwise_cons] at hp
    rw [memReadDict_cons]
    rcases List.mem_cons.1 hmem with h | h
    · subst h
      simp
    · rw [if_neg (hp.1 _ h).2, ih hp.2 h]

/-- A write of an absent non-empty key under an unused code keeps the canonical form. -/
theorem dictWf_memWriteDict {d : Dict} {key : Key} {code : Code} (hwf : dictWf d = true) (hkey : key ≠ [])
    (habs : memReadDict d key = none) (hfree : codeInUse d code = false) : dictWf (memWriteDict d key code) = true := by
  rw [memReadDict_eq_none_iff] at habs
  rw [codeInUse_eq_false_iff] at hfree
  rw [dictWf_iff] at hwf ⊢
  obtain ⟨hne, hp⟩ := hwf
  refine ⟨?_, ?_⟩
  · intro e he
    rcases (mem_memWriteDict d key code e).1 he with rfl | he
    · exact hkey
    · exact hne e he
  · clear hne
    induction d with
    | nil => simp [memWriteDict]
    | cons e d ih =>
      rw [List.pairwise_cons] at hp
      have hlt : ∀ x ∈ e :: d, x.code.toNat ≠ code.toNat := fun x hx h =>
        hfree x hx (BitVec.eq_of_toNat_eq h)
      rw [memWriteDict]
      split
      · next hc =>
        rw [List.pairwise_cons]
        refine ⟨?_, ih (fun x hx => habs x (List.mem_cons_of_mem _ hx))
          (fun x hx => hfree x (List.mem_cons_of_mem _ hx)) hp.2⟩
        intro x hx
        rcases (mem_memWriteDict d key code x).1 hx with rfl | hx
        · exact ⟨hc, habs e List.mem_cons_self⟩
        · exact hp.1 x hx
      · next hc =>
        have he := hlt e List.mem_cons_self
        rw [List.pairwise_cons]
        refine ⟨?_, List.pairwise_cons.2 hp⟩
        intro x hx
        rcases List.mem_cons.1 hx with rfl | hx'
        · exact ⟨show code.toNat < _ by omega, Ne.symm (habs x List.mem_cons_self)⟩
        · have := (hp.1 x hx').1
          exact ⟨show code.toNat < _ by omega, Ne.symm (habs x (List.mem_cons_of_mem _ hx'))⟩

/-- Whatever entries a free value lists, the dictionary they spell is in canonical form. -/
theorem dictWf_dictOfEntries (entries : List Entry) : dictWf (dictOfEntries entries) = true := by
  suffices h : ∀ (l : List Entry) (d : Dict), dictWf d = true → dictWf (l.foldl (fun d e =>
      if e.key.isEmpty || (memReadDict d e.key).isSome || codeInUse d e.code then d
      else memWriteDict d e.key e.code) d) = true from h entries [] rfl
  intro l
  induction l with
  | nil => intro d h; exact h
  | cons e l ih =>
    intro d h
    rw [List.foldl_cons]
    apply ih
    split
    · exact h
    · next hc =>
      simp only [Bool.or_eq_true, not_or, Bool.not_eq_true, List.isEmpty_eq_false_iff, Option.isSome_eq_false_iff,
        Option.isNone_iff_eq_none] at hc
      exact dictWf_memWriteDict h hc.1.1 hc.1.2 hc.2

/-- The 256 singletons are in canonical form. -/
theorem dictWf_singletons : dictWf singletons = true := by
  rw [dictWf_iff]
  refine ⟨by simp [singletons], ?_⟩
  rw [singletons, List.pairwise_map]
  refine List.Pairwise.imp_of_mem ?_ (List.pairwise_lt_range (n := 256))
  intro a b ha hb hab
  rw [List.mem_range] at ha hb
  refine ⟨by simp only [BitVec.toNat_ofNat]; omega, ?_⟩
  intro h
  have := congrArg (fun k : Key => (k.headD 0).toNat) h
  simp only [List.headD_cons, BitVec.toNat_ofNat] at this
  omega

@[simp] theorem length_singletons : singletons.length = 256 := by simp [singletons]

/-- "the entry for the one-byte key `[b]` has code `b`" (10_state.md R26). -/
theorem memReadDict_singletons (b : Byte) : memReadDict singletons [b] = some (b.setWidth 32) := by
  rw [memReadDict_eq_some_iff dictWf_singletons, singletons, List.mem_map]
  refine ⟨b.toNat, by simpa using b.isLt, ?_⟩
  congr 1
  · simp
  · apply BitVec.eq_of_toNat_eq
    simp

/-- No key but a one-byte key is a singleton. -/
theorem memReadDict_singletons_none {key : Key} (h : key.length ≠ 1) : memReadDict singletons key = none := by
  rw [memReadDict_eq_none_iff]
  intro e he hk
  rw [singletons, List.mem_map] at he
  obtain ⟨b, -, rfl⟩ := he
  exact h (by rw [← hk]; rfl)

theorem codes_singletons : singletons.map (fun e => e.code.toNat) = List.range 256 := by
  rw [singletons, List.map_map]
  apply List.ext_getElem (by simp)
  intro i h1 h2
  simp only [List.getElem_map, List.getElem_range, Function.comp, BitVec.toNat_ofNat]
  simp at h2
  omega

namespace Machine

theorem holdsOnlySingletons_singletons : HoldsOnlySingletons singletons :=
  ⟨length_singletons, memReadDict_singletons, fun _ h => memReadDict_singletons_none h⟩

/-- `DICT.RESET` establishes the dictionary invariant (40_dictionary.md R105). -/
theorem dictInv_singletons : DictInv singletons 255#32 where
  wf := dictWf_singletons
  codes := codes_singletons
  singles := memReadDict_singletons
  prefixClosed := by
    intro key c hk h
    exfalso
    apply h
    apply memReadDict_singletons_none
    have := List.length_pos_iff.2 hk
    simp only [List.length_append, List.length_cons, List.length_nil]
    omega

/-- Under D2 no code passes the counter. -/
theorem DictInv.code_le {d : Dict} {last : Code} (h : DictInv d last) {e : Entry} (he : e ∈ d) :
    e.code.toNat ≤ last.toNat := by
  have : e.code.toNat ∈ d.map (fun e => e.code.toNat) := List.mem_map_of_mem he
  rw [h.codes, List.mem_range] at this
  omega

theorem DictInv.read_le {d : Dict} {last : Code} (h : DictInv d last) {key : Key} {c : Code}
    (hc : memReadDict d key = some c) : c.toNat ≤ last.toNat :=
  h.code_le (e := ⟨key, c⟩) (mem_of_memReadDict hc)

/-- "The number of entries is always `last_assigned_code + 1`" (40_dictionary.md R105). -/
theorem DictInv.length {d : Dict} {last : Code} (h : DictInv d last) : d.length = last.toNat + 1 := by
  have := congrArg List.length h.codes
  simpa using this

/-- Code 255 belongs to byte 255, so the counter is never below it (10_state.md R34 D4). -/
theorem DictInv.last_ge {d : Dict} {last : Code} (h : DictInv d last) : 255 ≤ last.toNat := by
  have := h.read_le (h.singles 255#8)
  simpa using this

/-- The key of a read is non-empty. -/
theorem DictInv.key_ne_nil {d : Dict} {last : Code} (h : DictInv d last) {key : Key} (hk : memReadDict d key ≠ none) :
    key ≠ [] := by
  obtain ⟨c, hc⟩ := Option.ne_none_iff_exists'.1 hk
  exact ((dictWf_iff d).1 h.wf).1 _ (mem_of_memReadDict hc)

/-- An insertion under its preconditions keeps the dictionary invariant (40_dictionary.md R105), the key being a key of the
store extended by one byte. -/
theorem DictInv.insert {d : Dict} {last : Code} (h : DictInv d last) {key : Key} {c : Byte}
    (hkey : memReadDict d key ≠ none) (habs : memReadDict d (key ++ [c]) = none) (hlast : last.toNat + 1 < 2 ^ 32) :
    DictInv (memWriteDict d (key ++ [c]) (BitVec.ofNat 32 (last.toNat + 1))) (BitVec.ofNat 32 (last.toNat + 1)) := by
  have hcode : (BitVec.ofNat 32 (last.toNat + 1)).toNat = last.toNat + 1 := by
    rw [BitVec.toNat_ofNat, Nat.mod_eq_of_lt hlast]
  have hlt : ∀ e ∈ d, e.code.toNat < (BitVec.ofNat 32 (last.toNat + 1)).toNat := by
    intro e he
    have := h.code_le he
    omega
  refine ⟨?_, ?_, ?_, ?_⟩
  · apply dictWf_memWriteDict h.wf (by simp) habs
    rw [codeInUse_eq_false_iff]
    intro e he heq
    have := hlt e he
    rw [heq] at this
    omega
  · rw [memWriteDict_eq_append _ hlt, List.map_append, h.codes, hcode, List.range_succ (n := last.toNat + 1)]
    simp only [List.map_cons, List.map_nil, hcode]
  · intro b
    rw [memReadDict_memWriteDict_ne _ _ ?_, h.singles]
    intro heq
    have hne := h.key_ne_nil hkey
    have hlen := congrArg List.length heq
    have hpos := List.length_pos_iff.2 hne
    simp only [List.length_append, List.length_cons, List.length_nil] at hlen
    omega
  · intro k b hk hread
    rw [memReadDict_memWriteDict _ habs] at hread ⊢
    split
    · simp
    · split at hread
      · next heq =>
        obtain ⟨rfl, -⟩ := List.append_inj' heq rfl
        exact hkey
      · exact h.prefixClosed k b hk hread

end Machine
end Sys2Proof
end

