-- ==== Sys2Proof/Laws/Chain.lean ====
section
/-! SUPPORT. A dictionary of every size from 256 entries up that meets the dictionary invariant: the singletons, then the
runs of zero bytes. It stands as the witness of the statements about a full counter. -/

namespace Sys2Proof.Machine

/-- The key of code `n`: the byte itself, then `n - 254` zero bytes. -/
def chainKey (n : Nat) : Key := if n < 256 then [BitVec.ofNat 8 n] else List.replicate (n - 254) 0#8

/-- The chain of `n` entries. -/
def chain (n : Nat) : Dict := (List.range n).map fun k => ⟨chainKey k, BitVec.ofNat 32 k⟩

theorem length_chainKey (n : Nat) : (chainKey n).length = if n < 256 then 1 else n - 254 := by
  unfold chainKey
  split <;> simp

theorem chainKey_injective {m n : Nat} (h : chainKey m = chainKey n) : m = n := by
  have hl := congrArg List.length h
  rw [length_chainKey, length_chainKey] at hl
  by_cases hm : m < 256 <;> by_cases hn : n < 256 <;> simp only [hm, hn, if_true, if_false] at hl <;> try omega
  unfold chainKey at h
  rw [if_pos hm, if_pos hn] at h
  have := congrArg BitVec.toNat (List.cons.inj h).1
  rw [BitVec.toNat_ofNat, BitVec.toNat_ofNat] at this
  omega

theorem mem_chain {n : Nat} {e : Entry} : e ∈ chain n ↔ ∃ k, k < n ∧ e = ⟨chainKey k, BitVec.ofNat 32 k⟩ := by
  simp only [chain, List.mem_map, List.mem_range]
  exact ⟨fun ⟨k, hk, he⟩ => ⟨k, hk, he.symm⟩, fun ⟨k, hk, he⟩ => ⟨k, hk, he.symm⟩⟩

theorem dictWf_chain {n : Nat} (hn : n ≤ 2 ^ 32) : dictWf (chain n) = true := by
  rw [dictWf_iff]
  refine ⟨?_, ?_⟩
  · intro e he
    obtain ⟨k, -, rfl⟩ := mem_chain.1 he
    intro h
    have := congrArg List.length h
    rw [length_chainKey] at this
    split at this <;> simp at this
    omega
  · rw [chain, List.pairwise_map]
    refine List.Pairwise.imp_of_mem ?_ List.pairwise_lt_range
    intro a b ha hb hab
    rw [List.mem_range] at ha hb
    refine ⟨?_, fun h => ?_⟩
    · rw [BitVec.toNat_ofNat, BitVec.toNat_ofNat, Nat.mod_eq_of_lt (by omega), Nat.mod_eq_of_lt (by omega)]
      exact hab
    · exact absurd (chainKey_injective h) (by omega)

theorem memReadDict_chain {n : Nat} (hn : n ≤ 2 ^ 32) {k : Nat} (hk : k < n) :
    memReadDict (chain n) (chainKey k) = some (BitVec.ofNat 32 k) := by
  rw [memReadDict_eq_some_iff (dictWf_chain hn)]
  exact mem_chain.2 ⟨k, hk, rfl⟩

/-- The only keys are the chain's. -/
theorem memReadDict_chain_none {n : Nat} {key : Key} (h : ∀ k, k < n → chainKey k ≠ key) :
    memReadDict (chain n) key = none := by
  rw [memReadDict_eq_none_iff]
  intro e he
  obtain ⟨k, hk, rfl⟩ := mem_chain.1 he
  exact h k hk

theorem memReadDict_chain_singleton {n : Nat} (h256 : 256 ≤ n) (hn : n ≤ 2 ^ 32) (b : Byte) :
    memReadDict (chain n) [b] = some (b.setWidth 32) := by
  have hb := b.isLt
  have hkey : chainKey b.toNat = [b] := by
    unfold chainKey
    rw [if_pos (by omega)]
    congr 1
    rw [BitVec.ofNat_toNat, BitVec.setWidth_eq]
  rw [← hkey, memReadDict_chain hn (by omega)]
  congr 1
  apply BitVec.eq_of_toNat_eq
  simp

/-- The chain meets the dictionary invariant at every size the counter allows. -/
theorem dictInv_chain {n : Nat} (h256 : 256 ≤ n) (hn : n ≤ 2 ^ 32) : DictInv (chain n) (BitVec.ofNat 32 (n - 1)) where
  wf := dictWf_chain hn
  codes := by
    rw [BitVec.toNat_ofNat, Nat.mod_eq_of_lt (by omega), show n - 1 + 1 = n by omega, chain, List.map_map]
    refine (List.map_congr_left (g := id) ?_).trans (List.map_id _)
    intro k hk
    rw [List.mem_range] at hk
    show (BitVec.ofNat 32 k).toNat = k
    rw [BitVec.toNat_ofNat, Nat.mod_eq_of_lt (by omega)]
  singles := memReadDict_chain_singleton h256 hn
  prefixClosed := by
    intro key c hkey hread
    obtain ⟨code, hcode⟩ := Option.ne_none_iff_exists'.1 hread
    obtain ⟨k, hk, he⟩ := mem_chain.1 (mem_of_memReadDict hcode)
    have hkk : key ++ [c] = chainKey k := congrArg Entry.key he
    have hpos := List.length_pos_iff.2 hkey
    have hlen := congrArg List.length hkk
    rw [length_chainKey, List.length_append, List.length_singleton] at hlen
    have hk256 : ¬ k < 256 := by
      intro h
      rw [if_pos h] at hlen
      omega
    rw [if_neg hk256] at hlen
    have hzero : ∀ b ∈ key, b = 0#8 := by
      intro b hb
      have : b ∈ chainKey k := hkk ▸ List.mem_append_left _ hb
      unfold chainKey at this
      rw [if_neg hk256] at this
      exact List.eq_of_mem_replicate this
    rw [List.eq_replicate_iff.2 ⟨rfl, hzero⟩]
    by_cases h1 : key.length = 1
    · rw [h1, show List.replicate 1 0#8 = [0#8] from rfl, memReadDict_chain_singleton h256 hn]
      simp
    · have : List.replicate key.length 0#8 = chainKey (key.length + 254) := by
        unfold chainKey
        rw [if_neg (by omega), Nat.add_sub_cancel]
      rw [this, memReadDict_chain hn (by omega)]
      exact Option.some_ne_none _

end Sys2Proof.Machine
end

