-- ==== Sys2Proof/Laws/State.lean ====
section
/-! SUPPORT. What each update of the state does to each field, one lemma per field per update. -/

namespace Sys2Proof.Machine

@[simp] theorem memWriteSink_maxWidth (b : Byte) (s : State) : (memWriteSink b s).maxWidth = s.maxWidth := rfl
@[simp] theorem memWriteSink_policy (b : Byte) (s : State) : (memWriteSink b s).policy = s.policy := rfl
@[simp] theorem memWriteSink_state (b : Byte) (s : State) : (memWriteSink b s).state = s.state := rfl
@[simp] theorem memWriteSink_err (b : Byte) (s : State) : (memWriteSink b s).err = s.err := rfl
@[simp] theorem memWriteSink_pfx (b : Byte) (s : State) : (memWriteSink b s).pfx = s.pfx := rfl
@[simp] theorem memWriteSink_dict (b : Byte) (s : State) : (memWriteSink b s).dict = s.dict := rfl
@[simp] theorem memWriteSink_lastAssignedCode (b : Byte) (s : State) : (memWriteSink b s).lastAssignedCode = s.lastAssignedCode := rfl
@[simp] theorem memWriteSink_acc (b : Byte) (s : State) : (memWriteSink b s).acc = s.acc := rfl
@[simp] theorem memWriteSink_out (b : Byte) (s : State) : (memWriteSink b s).out = s.out ++ [b] := rfl
@[simp] theorem memWriteSink_nIn (b : Byte) (s : State) : (memWriteSink b s).nIn = s.nIn := rfl
@[simp] theorem memWriteSink_codes (b : Byte) (s : State) : (memWriteSink b s).codes = s.codes := rfl
@[simp] theorem memWriteSink_nResets (b : Byte) (s : State) : (memWriteSink b s).nResets = s.nResets := rfl
@[simp] theorem memWriteSink_flushed (b : Byte) (s : State) : (memWriteSink b s).flushed = s.flushed := rfl
@[simp] theorem memWriteSink_answer (b : Byte) (s : State) : (memWriteSink b s).answer = s.answer := rfl
@[simp] theorem memWriteSink_freeCount (b : Byte) (s : State) : (memWriteSink b s).freeCount = s.freeCount := rfl
@[simp] theorem memWriteSink_inputs (b : Byte) (s : State) : (memWriteSink b s).inputs = s.inputs := rfl

@[simp] theorem recordAnswer_maxWidth (a : Answer) (s : State) : (recordAnswer a s).maxWidth = s.maxWidth := rfl
@[simp] theorem recordAnswer_policy (a : Answer) (s : State) : (recordAnswer a s).policy = s.policy := rfl
@[simp] theorem recordAnswer_state (a : Answer) (s : State) : (recordAnswer a s).state = s.state := rfl
@[simp] theorem recordAnswer_err (a : Answer) (s : State) : (recordAnswer a s).err = s.err := rfl
@[simp] theorem recordAnswer_pfx (a : Answer) (s : State) : (recordAnswer a s).pfx = s.pfx := rfl
@[simp] theorem recordAnswer_dict (a : Answer) (s : State) : (recordAnswer a s).dict = s.dict := rfl
@[simp] theorem recordAnswer_lastAssignedCode (a : Answer) (s : State) : (recordAnswer a s).lastAssignedCode = s.lastAssignedCode := rfl
@[simp] theorem recordAnswer_acc (a : Answer) (s : State) : (recordAnswer a s).acc = s.acc := rfl
@[simp] theorem recordAnswer_out (a : Answer) (s : State) : (recordAnswer a s).out = s.out := rfl
@[simp] theorem recordAnswer_nIn (a : Answer) (s : State) : (recordAnswer a s).nIn = s.nIn := rfl
@[simp] theorem recordAnswer_codes (a : Answer) (s : State) : (recordAnswer a s).codes = s.codes := rfl
@[simp] theorem recordAnswer_nResets (a : Answer) (s : State) : (recordAnswer a s).nResets = s.nResets := rfl
@[simp] theorem recordAnswer_flushed (a : Answer) (s : State) : (recordAnswer a s).flushed = s.flushed := rfl
@[simp] theorem recordAnswer_answer (a : Answer) (s : State) : (recordAnswer a s).answer = a := rfl
@[simp] theorem recordAnswer_freeCount (a : Answer) (s : State) : (recordAnswer a s).freeCount = s.freeCount := rfl
@[simp] theorem recordAnswer_inputs (a : Answer) (s : State) : (recordAnswer a s).inputs = s.inputs := rfl

@[simp] theorem setPrefix_maxWidth (key : Key) (s : State) : (setPrefix key s).maxWidth = s.maxWidth := rfl
@[simp] theorem setPrefix_policy (key : Key) (s : State) : (setPrefix key s).policy = s.policy := rfl
@[simp] theorem setPrefix_state (key : Key) (s : State) : (setPrefix key s).state = s.state := rfl
@[simp] theorem setPrefix_err (key : Key) (s : State) : (setPrefix key s).err = s.err := rfl
@[simp] theorem setPrefix_pfx (key : Key) (s : State) : (setPrefix key s).pfx = key := rfl
@[simp] theorem setPrefix_dict (key : Key) (s : State) : (setPrefix key s).dict = s.dict := rfl
@[simp] theorem setPrefix_lastAssignedCode (key : Key) (s : State) : (setPrefix key s).lastAssignedCode = s.lastAssignedCode := rfl
@[simp] theorem setPrefix_acc (key : Key) (s : State) : (setPrefix key s).acc = s.acc := rfl
@[simp] theorem setPrefix_out (key : Key) (s : State) : (setPrefix key s).out = s.out := rfl
@[simp] theorem setPrefix_nIn (key : Key) (s : State) : (setPrefix key s).nIn = s.nIn := rfl
@[simp] theorem setPrefix_codes (key : Key) (s : State) : (setPrefix key s).codes = s.codes := rfl
@[simp] theorem setPrefix_nResets (key : Key) (s : State) : (setPrefix key s).nResets = s.nResets := rfl
@[simp] theorem setPrefix_flushed (key : Key) (s : State) : (setPrefix key s).flushed = s.flushed := rfl
@[simp] theorem setPrefix_answer (key : Key) (s : State) : (setPrefix key s).answer = s.answer := rfl
@[simp] theorem setPrefix_freeCount (key : Key) (s : State) : (setPrefix key s).freeCount = s.freeCount := rfl
@[simp] theorem setPrefix_inputs (key : Key) (s : State) : (setPrefix key s).inputs = s.inputs := rfl

@[simp] theorem setState_maxWidth (d : DriverState) (s : State) : (setState d s).maxWidth = s.maxWidth := rfl
@[simp] theorem setState_policy (d : DriverState) (s : State) : (setState d s).policy = s.policy := rfl
@[simp] theorem setState_state (d : DriverState) (s : State) : (setState d s).state = d := rfl
@[simp] theorem setState_err (d : DriverState) (s : State) : (setState d s).err = s.err := rfl
@[simp] theorem setState_pfx (d : DriverState) (s : State) : (setState d s).pfx = s.pfx := rfl
@[simp] theorem setState_dict (d : DriverState) (s : State) : (setState d s).dict = s.dict := rfl
@[simp] theorem setState_lastAssignedCode (d : DriverState) (s : State) : (setState d s).lastAssignedCode = s.lastAssignedCode := rfl
@[simp] theorem setState_acc (d : DriverState) (s : State) : (setState d s).acc = s.acc := rfl
@[simp] theorem setState_out (d : DriverState) (s : State) : (setState d s).out = s.out := rfl
@[simp] theorem setState_nIn (d : DriverState) (s : State) : (setState d s).nIn = s.nIn := rfl
@[simp] theorem setState_codes (d : DriverState) (s : State) : (setState d s).codes = s.codes := rfl
@[simp] theorem setState_nResets (d : DriverState) (s : State) : (setState d s).nResets = s.nResets := rfl
@[simp] theorem setState_flushed (d : DriverState) (s : State) : (setState d s).flushed = s.flushed := rfl
@[simp] theorem setState_answer (d : DriverState) (s : State) : (setState d s).answer = s.answer := rfl
@[simp] theorem setState_freeCount (d : DriverState) (s : State) : (setState d s).freeCount = s.freeCount := rfl
@[simp] theorem setState_inputs (d : DriverState) (s : State) : (setState d s).inputs = s.inputs := rfl

@[simp] theorem setInputs_maxWidth (later : List Input) (s : State) : (setInputs later s).maxWidth = s.maxWidth := rfl
@[simp] theorem setInputs_policy (later : List Input) (s : State) : (setInputs later s).policy = s.policy := rfl
@[simp] theorem setInputs_state (later : List Input) (s : State) : (setInputs later s).state = s.state := rfl
@[simp] theorem setInputs_err (later : List Input) (s : State) : (setInputs later s).err = s.err := rfl
@[simp] theorem setInputs_pfx (later : List Input) (s : State) : (setInputs later s).pfx = s.pfx := rfl
@[simp] theorem setInputs_dict (later : List Input) (s : State) : (setInputs later s).dict = s.dict := rfl
@[simp] theorem setInputs_lastAssignedCode (later : List Input) (s : State) : (setInputs later s).lastAssignedCode = s.lastAssignedCode := rfl
@[simp] theorem setInputs_acc (later : List Input) (s : State) : (setInputs later s).acc = s.acc := rfl
@[simp] theorem setInputs_out (later : List Input) (s : State) : (setInputs later s).out = s.out := rfl
@[simp] theorem setInputs_nIn (later : List Input) (s : State) : (setInputs later s).nIn = s.nIn := rfl
@[simp] theorem setInputs_codes (later : List Input) (s : State) : (setInputs later s).codes = s.codes := rfl
@[simp] theorem setInputs_nResets (later : List Input) (s : State) : (setInputs later s).nResets = s.nResets := rfl
@[simp] theorem setInputs_flushed (later : List Input) (s : State) : (setInputs later s).flushed = s.flushed := rfl
@[simp] theorem setInputs_answer (later : List Input) (s : State) : (setInputs later s).answer = s.answer := rfl
@[simp] theorem setInputs_freeCount (later : List Input) (s : State) : (setInputs later s).freeCount = s.freeCount := rfl
@[simp] theorem setInputs_inputs (later : List Input) (s : State) : (setInputs later s).inputs = later := rfl

@[simp] theorem raise_maxWidth (k : ErrKind) (s : State) : (raise k s).maxWidth = s.maxWidth := rfl
@[simp] theorem raise_policy (k : ErrKind) (s : State) : (raise k s).policy = s.policy := rfl
@[simp] theorem raise_state (k : ErrKind) (s : State) : (raise k s).state = .failed := rfl
@[simp] theorem raise_err (k : ErrKind) (s : State) : (raise k s).err = k := rfl
@[simp] theorem raise_pfx (k : ErrKind) (s : State) : (raise k s).pfx = freePrefix s.freeCount := rfl
@[simp] theorem raise_dict (k : ErrKind) (s : State) : (raise k s).dict = s.dict := rfl
@[simp] theorem raise_lastAssignedCode (k : ErrKind) (s : State) : (raise k s).lastAssignedCode = s.lastAssignedCode := rfl
@[simp] theorem raise_acc (k : ErrKind) (s : State) : (raise k s).acc = freeAcc s.freeCount := rfl
@[simp] theorem raise_out (k : ErrKind) (s : State) : (raise k s).out = s.out := rfl
@[simp] theorem raise_nIn (k : ErrKind) (s : State) : (raise k s).nIn = s.nIn := rfl
@[simp] theorem raise_codes (k : ErrKind) (s : State) : (raise k s).codes = s.codes := rfl
@[simp] theorem raise_nResets (k : ErrKind) (s : State) : (raise k s).nResets = s.nResets := rfl
@[simp] theorem raise_flushed (k : ErrKind) (s : State) : (raise k s).flushed = s.flushed := rfl
@[simp] theorem raise_answer (k : ErrKind) (s : State) : (raise k s).answer = s.answer := rfl
@[simp] theorem raise_freeCount (k : ErrKind) (s : State) : (raise k s).freeCount = s.freeCount + 1 := rfl
@[simp] theorem raise_inputs (k : ErrKind) (s : State) : (raise k s).inputs = s.inputs := rfl

@[simp] theorem raiseConfig_maxWidth (s : State) : (raiseConfig s).maxWidth = s.maxWidth := rfl
@[simp] theorem raiseConfig_policy (s : State) : (raiseConfig s).policy = s.policy := rfl
@[simp] theorem raiseConfig_state (s : State) : (raiseConfig s).state = .failed := rfl
@[simp] theorem raiseConfig_err (s : State) : (raiseConfig s).err = .config := rfl
@[simp] theorem raiseConfig_pfx (s : State) : (raiseConfig s).pfx = freePrefix s.freeCount := rfl
@[simp] theorem raiseConfig_dict (s : State) : (raiseConfig s).dict = s.dict := rfl
@[simp] theorem raiseConfig_lastAssignedCode (s : State) : (raiseConfig s).lastAssignedCode = s.lastAssignedCode := rfl
@[simp] theorem raiseConfig_acc (s : State) : (raiseConfig s).acc = [] := rfl
@[simp] theorem raiseConfig_out (s : State) : (raiseConfig s).out = s.out := rfl
@[simp] theorem raiseConfig_nIn (s : State) : (raiseConfig s).nIn = s.nIn := rfl
@[simp] theorem raiseConfig_codes (s : State) : (raiseConfig s).codes = s.codes := rfl
@[simp] theorem raiseConfig_nResets (s : State) : (raiseConfig s).nResets = s.nResets := rfl
@[simp] theorem raiseConfig_flushed (s : State) : (raiseConfig s).flushed = s.flushed := rfl
@[simp] theorem raiseConfig_answer (s : State) : (raiseConfig s).answer = s.answer := rfl
@[simp] theorem raiseConfig_freeCount (s : State) : (raiseConfig s).freeCount = s.freeCount + 1 := rfl
@[simp] theorem raiseConfig_inputs (s : State) : (raiseConfig s).inputs = s.inputs := rfl

@[simp] theorem openRun_maxWidth (mw : BitVec 6) (pol : Policy) (s : State) : (openRun mw pol s).maxWidth = mw := rfl
@[simp] theorem openRun_policy (mw : BitVec 6) (pol : Policy) (s : State) : (openRun mw pol s).policy = pol := rfl
@[simp] theorem openRun_state (mw : BitVec 6) (pol : Policy) (s : State) : (openRun mw pol s).state = s.state := rfl
@[simp] theorem openRun_err (mw : BitVec 6) (pol : Policy) (s : State) : (openRun mw pol s).err = s.err := rfl
@[simp] theorem openRun_pfx (mw : BitVec 6) (pol : Policy) (s : State) : (openRun mw pol s).pfx = s.pfx := rfl
@[simp] theorem openRun_dict (mw : BitVec 6) (pol : Policy) (s : State) : (openRun mw pol s).dict = s.dict := rfl
@[simp] theorem openRun_lastAssignedCode (mw : BitVec 6) (pol : Policy) (s : State) : (openRun mw pol s).lastAssignedCode = s.lastAssignedCode := rfl
@[simp] theorem openRun_acc (mw : BitVec 6) (pol : Policy) (s : State) : (openRun mw pol s).acc = [] := rfl
@[simp] theorem openRun_out (mw : BitVec 6) (pol : Policy) (s : State) : (openRun mw pol s).out = [] := rfl
@[simp] theorem openRun_nIn (mw : BitVec 6) (pol : Policy) (s : State) : (openRun mw pol s).nIn = 0 := rfl
@[simp] theorem openRun_codes (mw : BitVec 6) (pol : Policy) (s : State) : (openRun mw pol s).codes = [] := rfl
@[simp] theorem openRun_nResets (mw : BitVec 6) (pol : Policy) (s : State) : (openRun mw pol s).nResets = 0 := rfl
@[simp] theorem openRun_flushed (mw : BitVec 6) (pol : Policy) (s : State) : (openRun mw pol s).flushed = false := rfl
@[simp] theorem openRun_answer (mw : BitVec 6) (pol : Policy) (s : State) : (openRun mw pol s).answer = s.answer := rfl
@[simp] theorem openRun_freeCount (mw : BitVec 6) (pol : Policy) (s : State) : (openRun mw pol s).freeCount = s.freeCount := rfl
@[simp] theorem openRun_inputs (mw : BitVec 6) (pol : Policy) (s : State) : (openRun mw pol s).inputs = s.inputs := rfl

@[simp] theorem enterRun_maxWidth (d : Dict) (c : Code) (s : State) : (enterRun d c s).maxWidth = s.maxWidth := rfl
@[simp] theorem enterRun_policy (d : Dict) (c : Code) (s : State) : (enterRun d c s).policy = s.policy := rfl
@[simp] theorem enterRun_state (d : Dict) (c : Code) (s : State) : (enterRun d c s).state = .awaitFirstByte := rfl
@[simp] theorem enterRun_err (d : Dict) (c : Code) (s : State) : (enterRun d c s).err = .none := rfl
@[simp] theorem enterRun_pfx (d : Dict) (c : Code) (s : State) : (enterRun d c s).pfx = freePrefix s.freeCount := rfl
@[simp] theorem enterRun_dict (d : Dict) (c : Code) (s : State) : (enterRun d c s).dict = d := rfl
@[simp] theorem enterRun_lastAssignedCode (d : Dict) (c : Code) (s : State) : (enterRun d c s).lastAssignedCode = c := rfl
@[simp] theorem enterRun_acc (d : Dict) (c : Code) (s : State) : (enterRun d c s).acc = s.acc := rfl
@[simp] theorem enterRun_out (d : Dict) (c : Code) (s : State) : (enterRun d c s).out = s.out := rfl
@[simp] theorem enterRun_nIn (d : Dict) (c : Code) (s : State) : (enterRun d c s).nIn = s.nIn := rfl
@[simp] theorem enterRun_codes (d : Dict) (c : Code) (s : State) : (enterRun d c s).codes = s.codes := rfl
@[simp] theorem enterRun_nResets (d : Dict) (c : Code) (s : State) : (enterRun d c s).nResets = s.nResets := rfl
@[simp] theorem enterRun_flushed (d : Dict) (c : Code) (s : State) : (enterRun d c s).flushed = s.flushed := rfl
@[simp] theorem enterRun_answer (d : Dict) (c : Code) (s : State) : (enterRun d c s).answer = s.answer := rfl
@[simp] theorem enterRun_freeCount (d : Dict) (c : Code) (s : State) : (enterRun d c s).freeCount = s.freeCount + 1 := rfl
@[simp] theorem enterRun_inputs (d : Dict) (c : Code) (s : State) : (enterRun d c s).inputs = s.inputs := rfl

@[simp] theorem finishRun_maxWidth (s : State) : (finishRun s).maxWidth = s.maxWidth := rfl
@[simp] theorem finishRun_policy (s : State) : (finishRun s).policy = s.policy := rfl
@[simp] theorem finishRun_state (s : State) : (finishRun s).state = .done := rfl
@[simp] theorem finishRun_err (s : State) : (finishRun s).err = s.err := rfl
@[simp] theorem finishRun_pfx (s : State) : (finishRun s).pfx = freePrefix s.freeCount := rfl
@[simp] theorem finishRun_dict (s : State) : (finishRun s).dict = s.dict := rfl
@[simp] theorem finishRun_lastAssignedCode (s : State) : (finishRun s).lastAssignedCode = s.lastAssignedCode := rfl
@[simp] theorem finishRun_acc (s : State) : (finishRun s).acc = s.acc := rfl
@[simp] theorem finishRun_out (s : State) : (finishRun s).out = s.out := rfl
@[simp] theorem finishRun_nIn (s : State) : (finishRun s).nIn = s.nIn := rfl
@[simp] theorem finishRun_codes (s : State) : (finishRun s).codes = s.codes := rfl
@[simp] theorem finishRun_nResets (s : State) : (finishRun s).nResets = s.nResets := rfl
@[simp] theorem finishRun_flushed (s : State) : (finishRun s).flushed = s.flushed := rfl
@[simp] theorem finishRun_answer (s : State) : (finishRun s).answer = s.answer := rfl
@[simp] theorem finishRun_freeCount (s : State) : (finishRun s).freeCount = s.freeCount + 1 := rfl
@[simp] theorem finishRun_inputs (s : State) : (finishRun s).inputs = s.inputs := rfl

@[simp] theorem hardReset_maxWidth (s : State) : (hardReset s).maxWidth = Config.freeMaxWidth s.freeCount := rfl
@[simp] theorem hardReset_policy (s : State) : (hardReset s).policy = Config.freePolicy s.freeCount := rfl
@[simp] theorem hardReset_state (s : State) : (hardReset s).state = .idle := rfl
@[simp] theorem hardReset_err (s : State) : (hardReset s).err = .none := rfl
@[simp] theorem hardReset_pfx (s : State) : (hardReset s).pfx = freePrefix s.freeCount := rfl
@[simp] theorem hardReset_dict (s : State) : (hardReset s).dict = freeDict s.freeCount := rfl
@[simp] theorem hardReset_lastAssignedCode (s : State) : (hardReset s).lastAssignedCode = Config.freeCounter s.freeCount := rfl
@[simp] theorem hardReset_acc (s : State) : (hardReset s).acc = freeAcc s.freeCount := rfl
@[simp] theorem hardReset_out (s : State) : (hardReset s).out = [] := rfl
@[simp] theorem hardReset_nIn (s : State) : (hardReset s).nIn = 0 := rfl
@[simp] theorem hardReset_codes (s : State) : (hardReset s).codes = [] := rfl
@[simp] theorem hardReset_nResets (s : State) : (hardReset s).nResets = 0 := rfl
@[simp] theorem hardReset_flushed (s : State) : (hardReset s).flushed = false := rfl
@[simp] theorem hardReset_answer (s : State) : (hardReset s).answer = .nothing := rfl
@[simp] theorem hardReset_freeCount (s : State) : (hardReset s).freeCount = s.freeCount + 1 := rfl
@[simp] theorem hardReset_inputs (s : State) : (hardReset s).inputs = s.inputs := rfl

@[simp] theorem dictReset_maxWidth (s : State) : (dictReset s).maxWidth = s.maxWidth := rfl
@[simp] theorem dictReset_policy (s : State) : (dictReset s).policy = s.policy := rfl
@[simp] theorem dictReset_state (s : State) : (dictReset s).state = s.state := rfl
@[simp] theorem dictReset_err (s : State) : (dictReset s).err = s.err := rfl
@[simp] theorem dictReset_pfx (s : State) : (dictReset s).pfx = s.pfx := rfl
@[simp] theorem dictReset_dict (s : State) : (dictReset s).dict = singletons := rfl
@[simp] theorem dictReset_lastAssignedCode (s : State) : (dictReset s).lastAssignedCode = 255#32 := rfl
@[simp] theorem dictReset_acc (s : State) : (dictReset s).acc = s.acc := rfl
@[simp] theorem dictReset_out (s : State) : (dictReset s).out = s.out := rfl
@[simp] theorem dictReset_nIn (s : State) : (dictReset s).nIn = s.nIn := rfl
@[simp] theorem dictReset_codes (s : State) : (dictReset s).codes = s.codes := rfl
@[simp] theorem dictReset_nResets (s : State) : (dictReset s).nResets = s.nResets := rfl
@[simp] theorem dictReset_flushed (s : State) : (dictReset s).flushed = s.flushed := rfl
@[simp] theorem dictReset_answer (s : State) : (dictReset s).answer = s.answer := rfl
@[simp] theorem dictReset_freeCount (s : State) : (dictReset s).freeCount = s.freeCount := rfl
@[simp] theorem dictReset_inputs (s : State) : (dictReset s).inputs = s.inputs := rfl

@[simp] theorem countedReset_maxWidth (s : State) : (countedReset s).maxWidth = s.maxWidth := rfl
@[simp] theorem countedReset_policy (s : State) : (countedReset s).policy = s.policy := rfl
@[simp] theorem countedReset_state (s : State) : (countedReset s).state = s.state := rfl
@[simp] theorem countedReset_err (s : State) : (countedReset s).err = s.err := rfl
@[simp] theorem countedReset_pfx (s : State) : (countedReset s).pfx = s.pfx := rfl
@[simp] theorem countedReset_dict (s : State) : (countedReset s).dict = singletons := rfl
@[simp] theorem countedReset_lastAssignedCode (s : State) : (countedReset s).lastAssignedCode = 255#32 := rfl
@[simp] theorem countedReset_acc (s : State) : (countedReset s).acc = s.acc := rfl
@[simp] theorem countedReset_out (s : State) : (countedReset s).out = s.out := rfl
@[simp] theorem countedReset_nIn (s : State) : (countedReset s).nIn = s.nIn := rfl
@[simp] theorem countedReset_codes (s : State) : (countedReset s).codes = s.codes := rfl
@[simp] theorem countedReset_nResets (s : State) : (countedReset s).nResets = s.nResets + 1 := rfl
@[simp] theorem countedReset_flushed (s : State) : (countedReset s).flushed = s.flushed := rfl
@[simp] theorem countedReset_answer (s : State) : (countedReset s).answer = s.answer := rfl
@[simp] theorem countedReset_freeCount (s : State) : (countedReset s).freeCount = s.freeCount := rfl
@[simp] theorem countedReset_inputs (s : State) : (countedReset s).inputs = s.inputs := rfl

@[simp] theorem learn_maxWidth (key : Key) (code : Code) (s : State) : (learn key code s).maxWidth = s.maxWidth := rfl
@[simp] theorem learn_policy (key : Key) (code : Code) (s : State) : (learn key code s).policy = s.policy := rfl
@[simp] theorem learn_state (key : Key) (code : Code) (s : State) : (learn key code s).state = s.state := rfl
@[simp] theorem learn_err (key : Key) (code : Code) (s : State) : (learn key code s).err = s.err := rfl
@[simp] theorem learn_pfx (key : Key) (code : Code) (s : State) : (learn key code s).pfx = s.pfx := rfl
@[simp] theorem learn_dict (key : Key) (code : Code) (s : State) : (learn key code s).dict = memWriteDict s.dict key code := rfl
@[simp] theorem learn_lastAssignedCode (key : Key) (code : Code) (s : State) : (learn key code s).lastAssignedCode = code := rfl
@[simp] theorem learn_acc (key : Key) (code : Code) (s : State) : (learn key code s).acc = s.acc := rfl
@[simp] theorem learn_out (key : Key) (code : Code) (s : State) : (learn key code s).out = s.out := rfl
@[simp] theorem learn_nIn (key : Key) (code : Code) (s : State) : (learn key code s).nIn = s.nIn := rfl
@[simp] theorem learn_codes (key : Key) (code : Code) (s : State) : (learn key code s).codes = s.codes := rfl
@[simp] theorem learn_nResets (key : Key) (code : Code) (s : State) : (learn key code s).nResets = s.nResets := rfl
@[simp] theorem learn_flushed (key : Key) (code : Code) (s : State) : (learn key code s).flushed = s.flushed := rfl
@[simp] theorem learn_answer (key : Key) (code : Code) (s : State) : (learn key code s).answer = s.answer := rfl
@[simp] theorem learn_freeCount (key : Key) (code : Code) (s : State) : (learn key code s).freeCount = s.freeCount := rfl
@[simp] theorem learn_inputs (key : Key) (code : Code) (s : State) : (learn key code s).inputs = s.inputs := rfl

@[simp] theorem extractByte_maxWidth (s : State) : (extractByte s).maxWidth = s.maxWidth := rfl
@[simp] theorem extractByte_policy (s : State) : (extractByte s).policy = s.policy := rfl
@[simp] theorem extractByte_state (s : State) : (extractByte s).state = s.state := rfl
@[simp] theorem extractByte_err (s : State) : (extractByte s).err = s.err := rfl
@[simp] theorem extractByte_pfx (s : State) : (extractByte s).pfx = s.pfx := rfl
@[simp] theorem extractByte_dict (s : State) : (extractByte s).dict = s.dict := rfl
@[simp] theorem extractByte_lastAssignedCode (s : State) : (extractByte s).lastAssignedCode = s.lastAssignedCode := rfl
@[simp] theorem extractByte_acc (s : State) : (extractByte s).acc = s.acc.drop 8 := rfl
@[simp] theorem extractByte_out (s : State) : (extractByte s).out = s.out ++ [byteOfBits (s.acc.take 8)] := rfl
@[simp] theorem extractByte_nIn (s : State) : (extractByte s).nIn = s.nIn := rfl
@[simp] theorem extractByte_codes (s : State) : (extractByte s).codes = s.codes := rfl
@[simp] theorem extractByte_nResets (s : State) : (extractByte s).nResets = s.nResets := rfl
@[simp] theorem extractByte_flushed (s : State) : (extractByte s).flushed = s.flushed := rfl
@[simp] theorem extractByte_answer (s : State) : (extractByte s).answer = s.answer := rfl
@[simp] theorem extractByte_freeCount (s : State) : (extractByte s).freeCount = s.freeCount := rfl
@[simp] theorem extractByte_inputs (s : State) : (extractByte s).inputs = s.inputs := rfl

@[simp] theorem pushCode_maxWidth (code width : Nat) (s : State) : (pushCode code width s).maxWidth = s.maxWidth := rfl
@[simp] theorem pushCode_policy (code width : Nat) (s : State) : (pushCode code width s).policy = s.policy := rfl
@[simp] theorem pushCode_state (code width : Nat) (s : State) : (pushCode code width s).state = s.state := rfl
@[simp] theorem pushCode_err (code width : Nat) (s : State) : (pushCode code width s).err = s.err := rfl
@[simp] theorem pushCode_pfx (code width : Nat) (s : State) : (pushCode code width s).pfx = s.pfx := rfl
@[simp] theorem pushCode_dict (code width : Nat) (s : State) : (pushCode code width s).dict = s.dict := rfl
@[simp] theorem pushCode_lastAssignedCode (code width : Nat) (s : State) : (pushCode code width s).lastAssignedCode = s.lastAssignedCode := rfl
@[simp] theorem pushCode_acc (code width : Nat) (s : State) : (pushCode code width s).acc = s.acc ++ bitstr width code := rfl
@[simp] theorem pushCode_out (code width : Nat) (s : State) : (pushCode code width s).out = s.out := rfl
@[simp] theorem pushCode_nIn (code width : Nat) (s : State) : (pushCode code width s).nIn = s.nIn := rfl
@[simp] theorem pushCode_codes (code width : Nat) (s : State) : (pushCode code width s).codes = s.codes ++ [⟨code, width⟩] := rfl
@[simp] theorem pushCode_nResets (code width : Nat) (s : State) : (pushCode code width s).nResets = s.nResets := rfl
@[simp] theorem pushCode_flushed (code width : Nat) (s : State) : (pushCode code width s).flushed = s.flushed := rfl
@[simp] theorem pushCode_answer (code width : Nat) (s : State) : (pushCode code width s).answer = s.answer := rfl
@[simp] theorem pushCode_freeCount (code width : Nat) (s : State) : (pushCode code width s).freeCount = s.freeCount := rfl
@[simp] theorem pushCode_inputs (code width : Nat) (s : State) : (pushCode code width s).inputs = s.inputs := rfl

@[simp] theorem closePacker_maxWidth (s : State) : (closePacker s).maxWidth = s.maxWidth := rfl
@[simp] theorem closePacker_policy (s : State) : (closePacker s).policy = s.policy := rfl
@[simp] theorem closePacker_state (s : State) : (closePacker s).state = s.state := rfl
@[simp] theorem closePacker_err (s : State) : (closePacker s).err = s.err := rfl
@[simp] theorem closePacker_pfx (s : State) : (closePacker s).pfx = s.pfx := rfl
@[simp] theorem closePacker_dict (s : State) : (closePacker s).dict = s.dict := rfl
@[simp] theorem closePacker_lastAssignedCode (s : State) : (closePacker s).lastAssignedCode = s.lastAssignedCode := rfl
@[simp] theorem closePacker_acc (s : State) : (closePacker s).acc = [] := rfl
@[simp] theorem closePacker_out (s : State) : (closePacker s).out = s.out := rfl
@[simp] theorem closePacker_nIn (s : State) : (closePacker s).nIn = s.nIn := rfl
@[simp] theorem closePacker_codes (s : State) : (closePacker s).codes = s.codes := rfl
@[simp] theorem closePacker_nResets (s : State) : (closePacker s).nResets = s.nResets := rfl
@[simp] theorem closePacker_flushed (s : State) : (closePacker s).flushed = true := rfl
@[simp] theorem closePacker_answer (s : State) : (closePacker s).answer = s.answer := rfl
@[simp] theorem closePacker_freeCount (s : State) : (closePacker s).freeCount = s.freeCount := rfl
@[simp] theorem closePacker_inputs (s : State) : (closePacker s).inputs = s.inputs := rfl

@[simp] theorem countByte_maxWidth (s : State) : (countByte s).maxWidth = s.maxWidth := rfl
@[simp] theorem countByte_policy (s : State) : (countByte s).policy = s.policy := rfl
@[simp] theorem countByte_state (s : State) : (countByte s).state = s.state := rfl
@[simp] theorem countByte_err (s : State) : (countByte s).err = s.err := rfl
@[simp] theorem countByte_pfx (s : State) : (countByte s).pfx = s.pfx := rfl
@[simp] theorem countByte_dict (s : State) : (countByte s).dict = s.dict := rfl
@[simp] theorem countByte_lastAssignedCode (s : State) : (countByte s).lastAssignedCode = s.lastAssignedCode := rfl
@[simp] theorem countByte_acc (s : State) : (countByte s).acc = s.acc := rfl
@[simp] theorem countByte_out (s : State) : (countByte s).out = s.out := rfl
@[simp] theorem countByte_nIn (s : State) : (countByte s).nIn = s.nIn + 1 := rfl
@[simp] theorem countByte_codes (s : State) : (countByte s).codes = s.codes := rfl
@[simp] theorem countByte_nResets (s : State) : (countByte s).nResets = s.nResets := rfl
@[simp] theorem countByte_flushed (s : State) : (countByte s).flushed = s.flushed := rfl
@[simp] theorem countByte_answer (s : State) : (countByte s).answer = s.answer := rfl
@[simp] theorem countByte_freeCount (s : State) : (countByte s).freeCount = s.freeCount := rfl
@[simp] theorem countByte_inputs (s : State) : (countByte s).inputs = s.inputs := rfl

@[simp] theorem byteFirst_maxWidth (c : Byte) (s : State) : (byteFirst c s).maxWidth = s.maxWidth := rfl
@[simp] theorem byteFirst_policy (c : Byte) (s : State) : (byteFirst c s).policy = s.policy := rfl
@[simp] theorem byteFirst_state (c : Byte) (s : State) : (byteFirst c s).state = .matching := rfl
@[simp] theorem byteFirst_err (c : Byte) (s : State) : (byteFirst c s).err = s.err := rfl
@[simp] theorem byteFirst_pfx (c : Byte) (s : State) : (byteFirst c s).pfx = [c] := rfl
@[simp] theorem byteFirst_dict (c : Byte) (s : State) : (byteFirst c s).dict = s.dict := rfl
@[simp] theorem byteFirst_lastAssignedCode (c : Byte) (s : State) : (byteFirst c s).lastAssignedCode = s.lastAssignedCode := rfl
@[simp] theorem byteFirst_acc (c : Byte) (s : State) : (byteFirst c s).acc = s.acc := rfl
@[simp] theorem byteFirst_out (c : Byte) (s : State) : (byteFirst c s).out = s.out := rfl
@[simp] theorem byteFirst_nIn (c : Byte) (s : State) : (byteFirst c s).nIn = s.nIn + 1 := rfl
@[simp] theorem byteFirst_codes (c : Byte) (s : State) : (byteFirst c s).codes = s.codes := rfl
@[simp] theorem byteFirst_nResets (c : Byte) (s : State) : (byteFirst c s).nResets = s.nResets := rfl
@[simp] theorem byteFirst_flushed (c : Byte) (s : State) : (byteFirst c s).flushed = s.flushed := rfl
@[simp] theorem byteFirst_answer (c : Byte) (s : State) : (byteFirst c s).answer = s.answer := rfl
@[simp] theorem byteFirst_freeCount (c : Byte) (s : State) : (byteFirst c s).freeCount = s.freeCount := rfl
@[simp] theorem byteFirst_inputs (c : Byte) (s : State) : (byteFirst c s).inputs = s.inputs := rfl

/-- In `FAILED` a misplaced command or an illegal word changes nothing (43_driver.md R151). -/
theorem protocolError_failed (s : State) (h : s.state = .failed) : protocolError s = s := by
  simp [protocolError, h]

/-- Everywhere else it raises `PROTOCOL` (43_driver.md R149, R150). -/
theorem protocolError_live (s : State) (h : s.state ≠ .failed) : protocolError s = raise .protocol s := by
  unfold protocolError
  split <;> simp_all

/-! Two states with equal fields are equal. -/

theorem State.eq_of_fields {s t : State}
    (h_maxWidth : s.maxWidth = t.maxWidth)
    (h_policy : s.policy = t.policy)
    (h_state : s.state = t.state)
    (h_err : s.err = t.err)
    (h_pfx : s.pfx = t.pfx)
    (h_dict : s.dict = t.dict)
    (h_lastAssignedCode : s.lastAssignedCode = t.lastAssignedCode)
    (h_acc : s.acc = t.acc)
    (h_out : s.out = t.out)
    (h_nIn : s.nIn = t.nIn)
    (h_codes : s.codes = t.codes)
    (h_nResets : s.nResets = t.nResets)
    (h_flushed : s.flushed = t.flushed)
    (h_answer : s.answer = t.answer)
    (h_freeCount : s.freeCount = t.freeCount)
    (h_inputs : s.inputs = t.inputs) : s = t := by
  cases s
  cases t
  simp_all

end Sys2Proof.Machine
end

