-- ==== Sys2Proof/Laws/Packer.lean ====
section
/-! SUPPORT. Laws of the Bit Packer (42_bit_packer.md R128, R129, R131): what `DRAIN`, `BP.APPEND` and `BP.FLUSH` can do. -/

namespace Sys2Proof.Machine

/-- A turn of `DRAIN` moves 8 bits from `acc` to `out` and loses none. -/
theorem extractByte_bits (s : State) (h : 8 ≤ s.acc.length) :
    sinkBits (extractByte s).out ++ (extractByte s).acc = sinkBits s.out ++ s.acc := by
  have h8 : (s.acc.take 8).length = 8 := by simp [h]
  simp [bitsOfByte_byteOfBits _ h8]

/-- Everything `drainLoop` can do with enough turns. -/
theorem drainLoop_spec (turns : Nat) (s : State) (h : turns = s.acc.length / 8) :
    sinkBits (drainLoop turns s).out ++ (drainLoop turns s).acc = sinkBits s.out ++ s.acc ∧
    (drainLoop turns s).acc.length = s.acc.length % 8 ∧
    (drainLoop turns s).out.length = s.out.length + s.acc.length / 8 ∧
    s.out <+: (drainLoop turns s).out ∧
    drainLoop turns s = { s with out := (drainLoop turns s).out, acc := (drainLoop turns s).acc } := by
  induction turns generalizing s with
  | zero =>
    refine ⟨rfl, ?_, ?_, List.prefix_refl _, rfl⟩ <;> simp only [drainLoop] <;> omega
  | succ turns ih =>
    have h8 : 8 ≤ s.acc.length := by omega
    rw [drainLoop, if_pos h8]
    obtain ⟨h1, h2, h3, h4, h5⟩ := ih (extractByte s) (by simp only [extractByte_acc, List.length_drop]; omega)
    refine ⟨h1.trans (extractByte_bits s h8), ?_, ?_, ?_, ?_⟩
    · rw [h2, extractByte_acc, List.length_drop]
      omega
    · rw [h3]
      simp only [extractByte_acc, extractByte_out, List.length_drop, List.length_append, List.length_cons, List.length_nil]
      omega
    · exact (List.prefix_append _ _).trans h4
    · conv_lhs => rw [h5]
      rfl

/-- Every appended bit is, in order, in `out` or in `acc` (42_bit_packer.md R131). -/
theorem drain_bits (s : State) : sinkBits (drain s).out ++ (drain s).acc = sinkBits s.out ++ s.acc :=
  (drainLoop_spec _ s rfl).1

theorem drain_acc_length (s : State) : (drain s).acc.length = s.acc.length % 8 := (drainLoop_spec _ s rfl).2.1

theorem drain_out_length (s : State) : (drain s).out.length = s.out.length + s.acc.length / 8 :=
  (drainLoop_spec _ s rfl).2.2.1

theorem drain_out_prefix (s : State) : s.out <+: (drain s).out := (drainLoop_spec _ s rfl).2.2.2.1

/-- `DRAIN` writes `out` and `acc` alone. -/
theorem drain_frame (s : State) : drain s = { s with out := (drain s).out, acc := (drain s).acc } :=
  (drainLoop_spec _ s rfl).2.2.2.2

theorem appendInRange_iff (code w : Nat) : appendInRange code w = true ↔ 8 ≤ w ∧ w ≤ 32 ∧ code < 2 ^ w := by
  simp [appendInRange, and_assoc]

/-- `BP.APPEND` answers a next state exactly for operands in range before the run's flush. -/
theorem bpAppend_eq_next_iff (code w : Nat) (s t : State) : bpAppend code w s = .next t ↔
    appendInRange code w = true ∧ s.flushed = false ∧
      t = drain (pushCode code w s) := by
  unfold bpAppend
  split
  · next hr => simp [hr]
  · next hr =>
    split
    · next hf => simp [hf]
    · next hf =>
      simp only [Bool.not_eq_false, Bool.not_eq_true] at hr hf
      simp only [Host.Outcome.next.injEq, hr, hf, true_and]
      exact eq_comm

/-- Everything a `BP.APPEND` that answers can do. -/
theorem bpAppend_spec {code w : Nat} {s t : State} (h : bpAppend code w s = .next t) :
    EmissionFits ⟨code, w⟩ ∧ s.flushed = false ∧ AppendsCode code w s t ∧
    t.acc.length = (s.acc.length + w) % 8 ∧ t.out.length = s.out.length + (s.acc.length + w) / 8 ∧
    s.out <+: t.out ∧
    t = { s with out := t.out, acc := t.acc, codes := s.codes ++ [⟨code, w⟩] } := by
  obtain ⟨hr, hf, rfl⟩ := (bpAppend_eq_next_iff code w s t).1 h
  generalize hu : pushCode code w s = u
  have hacc : u.acc = s.acc ++ bitstr w code := by rw [← hu, pushCode_acc]
  have hout : u.out = s.out := by rw [← hu, pushCode_out]
  have hcodes : u.codes = s.codes ++ [⟨code, w⟩] := by rw [← hu, pushCode_codes]
  have hlen : u.acc.length = s.acc.length + w := by rw [hacc]; simp
  have hframe := drain_frame u
  have h7 : (drain u).acc.length ≤ 7 := by rw [drain_acc_length]; omega
  refine ⟨(appendInRange_iff code w).1 hr, hf, ⟨?_, h7, ?_⟩, ?_, ?_, ?_, ?_⟩
  · rw [drain_bits, hacc, hout, List.append_assoc]
  · rw [hframe]
    exact hcodes
  · rw [drain_acc_length, hlen]
  · rw [drain_out_length, hlen, hout]
  · rw [← hout]
    exact drain_out_prefix u
  · conv_lhs => rw [hframe]
    rw [← hu]
    rfl

/-- With operands in range and the packer open, `BP.APPEND` completes. -/
theorem bpAppend_completes {code w : Nat} {s : State} (hr : appendInRange code w = true) (hf : s.flushed = false) :
    ∃ t, bpAppend code w s = .next t :=
  ⟨_, (bpAppend_eq_next_iff code w s _).2 ⟨hr, hf, rfl⟩⟩

/-- The padding of a flush is the padding of the stream (30_encoding.md R75). -/
theorem bitsOfByte_flushByte {acc : Bits} (h : acc.length ≤ 7) :
    bitsOfByte (flushByte acc) = acc ++ List.replicate (8 - acc.length) false :=
  bitsOfByte_byteOfBits _ (by simp only [List.length_append, List.length_replicate]; omega)

/-- Everything a `BP.FLUSH` that answers can do. -/
theorem bpFlush_spec {s t : State} (h : bpFlush s = .next t) :
    s.flushed = false ∧ s.acc.length ≤ 7 ∧
    sinkBits t.out = sinkBits s.out ++ s.acc ++ padBits s.acc.length ∧
    t.out.length = s.out.length + (s.acc.length + 7) / 8 ∧
    s.out <+: t.out ∧
    t = { s with out := t.out, acc := [], flushed := true } := by
  unfold bpFlush at h
  split at h
  · simp at h
  · next hf =>
    split at h
    · simp at h
    · next h8 =>
      have h7 : s.acc.length ≤ 7 := by omega
      split at h
      · next hn =>
        obtain rfl := Host.Outcome.next.inj h
        simp only [accNonempty, decide_eq_true_eq] at hn
        refine ⟨by simpa using hf, h7, ?_, ?_, List.prefix_append _ _, rfl⟩
        · show sinkBits (s.out ++ [flushByte s.acc]) = _
          rw [sinkBits_append, sinkBits_singleton, bitsOfByte_flushByte h7, padBits, List.append_assoc,
            show (8 - s.acc.length % 8) % 8 = 8 - s.acc.length by omega]
        · show (s.out ++ [flushByte s.acc]).length = _
          simp only [List.length_append, List.length_cons, List.length_nil]
          omega
      · next hn =>
        obtain rfl := Host.Outcome.next.inj h
        have hnil : s.acc = [] := by
          simpa [accNonempty, List.length_eq_zero_iff] using hn
        refine ⟨by simpa using hf, h7, ?_, ?_, List.prefix_refl _, ?_⟩
        · simp [hnil, padBits]
        · simp [hnil]
        · rfl

/-- With at most 7 bits held and the packer open, `BP.FLUSH` completes. -/
theorem bpFlush_completes {s : State} (hf : s.flushed = false) (h7 : s.acc.length ≤ 7) : ∃ t, bpFlush s = .next t := by
  unfold bpFlush
  rw [if_neg (by simp [hf]), if_neg (by omega)]
  split <;> exact ⟨_, rfl⟩

/-! The fields an append leaves as they are, and those a flush leaves. -/

theorem bpAppend_maxWidth {code w : Nat} {s t : State} (h : bpAppend code w s = .next t) : t.maxWidth = s.maxWidth := by
  rw [(bpAppend_spec h).2.2.2.2.2.2]

theorem bpAppend_policy {code w : Nat} {s t : State} (h : bpAppend code w s = .next t) : t.policy = s.policy := by
  rw [(bpAppend_spec h).2.2.2.2.2.2]

theorem bpAppend_state {code w : Nat} {s t : State} (h : bpAppend code w s = .next t) : t.state = s.state := by
  rw [(bpAppend_spec h).2.2.2.2.2.2]

theorem bpAppend_err {code w : Nat} {s t : State} (h : bpAppend code w s = .next t) : t.err = s.err := by
  rw [(bpAppend_spec h).2.2.2.2.2.2]

theorem bpAppend_pfx {code w : Nat} {s t : State} (h : bpAppend code w s = .next t) : t.pfx = s.pfx := by
  rw [(bpAppend_spec h).2.2.2.2.2.2]

theorem bpAppend_dict {code w : Nat} {s t : State} (h : bpAppend code w s = .next t) : t.dict = s.dict := by
  rw [(bpAppend_spec h).2.2.2.2.2.2]

theorem bpAppend_lastAssignedCode {code w : Nat} {s t : State} (h : bpAppend code w s = .next t) : t.lastAssignedCode = s.lastAssignedCode := by
  rw [(bpAppend_spec h).2.2.2.2.2.2]

theorem bpAppend_nIn {code w : Nat} {s t : State} (h : bpAppend code w s = .next t) : t.nIn = s.nIn := by
  rw [(bpAppend_spec h).2.2.2.2.2.2]

theorem bpAppend_nResets {code w : Nat} {s t : State} (h : bpAppend code w s = .next t) : t.nResets = s.nResets := by
  rw [(bpAppend_spec h).2.2.2.2.2.2]

theorem bpAppend_answer {code w : Nat} {s t : State} (h : bpAppend code w s = .next t) : t.answer = s.answer := by
  rw [(bpAppend_spec h).2.2.2.2.2.2]

theorem bpAppend_freeCount {code w : Nat} {s t : State} (h : bpAppend code w s = .next t) : t.freeCount = s.freeCount := by
  rw [(bpAppend_spec h).2.2.2.2.2.2]

theorem bpAppend_inputs {code w : Nat} {s t : State} (h : bpAppend code w s = .next t) : t.inputs = s.inputs := by
  rw [(bpAppend_spec h).2.2.2.2.2.2]

theorem bpAppend_flushed {code w : Nat} {s t : State} (h : bpAppend code w s = .next t) : t.flushed = s.flushed := by
  rw [(bpAppend_spec h).2.2.2.2.2.2]

theorem bpFlush_maxWidth {s t : State} (h : bpFlush s = .next t) : t.maxWidth = s.maxWidth := by
  rw [(bpFlush_spec h).2.2.2.2.2]

theorem bpFlush_policy {s t : State} (h : bpFlush s = .next t) : t.policy = s.policy := by
  rw [(bpFlush_spec h).2.2.2.2.2]

theorem bpFlush_state {s t : State} (h : bpFlush s = .next t) : t.state = s.state := by
  rw [(bpFlush_spec h).2.2.2.2.2]

theorem bpFlush_err {s t : State} (h : bpFlush s = .next t) : t.err = s.err := by
  rw [(bpFlush_spec h).2.2.2.2.2]

theorem bpFlush_pfx {s t : State} (h : bpFlush s = .next t) : t.pfx = s.pfx := by
  rw [(bpFlush_spec h).2.2.2.2.2]

theorem bpFlush_dict {s t : State} (h : bpFlush s = .next t) : t.dict = s.dict := by
  rw [(bpFlush_spec h).2.2.2.2.2]

theorem bpFlush_lastAssignedCode {s t : State} (h : bpFlush s = .next t) : t.lastAssignedCode = s.lastAssignedCode := by
  rw [(bpFlush_spec h).2.2.2.2.2]

theorem bpFlush_nIn {s t : State} (h : bpFlush s = .next t) : t.nIn = s.nIn := by
  rw [(bpFlush_spec h).2.2.2.2.2]

theorem bpFlush_nResets {s t : State} (h : bpFlush s = .next t) : t.nResets = s.nResets := by
  rw [(bpFlush_spec h).2.2.2.2.2]

theorem bpFlush_answer {s t : State} (h : bpFlush s = .next t) : t.answer = s.answer := by
  rw [(bpFlush_spec h).2.2.2.2.2]

theorem bpFlush_freeCount {s t : State} (h : bpFlush s = .next t) : t.freeCount = s.freeCount := by
  rw [(bpFlush_spec h).2.2.2.2.2]

theorem bpFlush_inputs {s t : State} (h : bpFlush s = .next t) : t.inputs = s.inputs := by
  rw [(bpFlush_spec h).2.2.2.2.2]

theorem bpFlush_codes {s t : State} (h : bpFlush s = .next t) : t.codes = s.codes := by
  rw [(bpFlush_spec h).2.2.2.2.2]

theorem length_padBits (n : Nat) : (padBits n).length = (8 - n % 8) % 8 := by simp [padBits]

end Sys2Proof.Machine
end

