-- ==== Sys2Proof/Laws/Driver.lean ====
section
/-! SUPPORT. What the driver's shared operations can do: width, reset due, insertion, emission, and the outcomes of each
command. -/

namespace Sys2Proof.Machine

@[simp] theorem andThen_next (s : State) (f : State → Host.Outcome State Fault Refusal) : andThen (.next s) f = f s := rfl

/-- `andThen` answers a next state only through one of its first operation. -/
theorem andThen_eq_next_iff (o : Host.Outcome State Fault Refusal) (f : State → Host.Outcome State Fault Refusal)
    (t : State) : andThen o f = .next t ↔ ∃ u, o = .next u ∧ f u = .next t := by
  cases o <;> simp [andThen]

theorem width_ge (s : State) : 8 ≤ width s := le_max_left _ _

theorem width_le (s : State) : width s ≤ 32 := max_le (by omega) (bitLength_code _)

/-- A code up to the counter fits the current width (30_encoding.md R76). -/
theorem lt_two_pow_width {s : State} {n : Nat} (h : n ≤ s.lastAssignedCode.toNat) : n < 2 ^ width s :=
  lt_of_le_of_lt h (lt_of_lt_of_le (lt_two_pow_bitLength _) (Nat.pow_le_pow_right (by omega) (le_max_right _ _)))

/-- The code of a key of a sound dictionary is in range for an append at the current width. -/
theorem append_inRange_of_le {s : State} {n : Nat} (h : n ≤ s.lastAssignedCode.toNat) :
    appendInRange n (width s) = true :=
  (appendInRange_iff _ _).2 ⟨width_ge s, width_le s, lt_two_pow_width h⟩

/-- The equivalent test of 41_code_width.md R116. -/
theorem resetDue_iff (s : State) : resetDue s = true ↔
    s.policy = .boundedReset ∧ 2 ^ s.maxWidth.toNat ≤ s.lastAssignedCode.toNat + 1 := by
  unfold resetDue
  split
  · next h => simp [h]
  · next h => simp [h, nextCode, lt_bitLength_iff]

theorem capacityFull_iff (s : State) : capacityFull s = true ↔
    s.policy = .growthOnly ∧ s.lastAssignedCode.toNat = 2 ^ 32 - 1 := by
  unfold capacityFull
  split <;> next h => simp [h]

theorem storeTakes_default (d : Dict) (key : Key) : storeTakes d key = true := rfl

theorem mwValid_iff (mw : BitVec 6) : mwValid mw = true ↔ 9 ≤ mw.toNat ∧ mw.toNat ≤ 32 := by simp [mwValid]

/-- `DICT.INSERT` answers a next state exactly under its preconditions. -/
theorem dictInsert_eq_next_iff (key : Key) (code : Nat) (s t : State) : dictInsert key code s = .next t ↔
    key ≠ [] ∧ memReadDict s.dict key = none ∧ code = nextCode s ∧ code < 2 ^ 32 ∧
      codeInUse s.dict (BitVec.ofNat 32 code) = false ∧
      t = learn key (BitVec.ofNat 32 code) s := by
  unfold dictInsert dictLookup
  rw [storeTakes_default]
  constructor
  · intro h
    split at h <;> try simp at h
    split at h <;> try simp at h
    split at h <;> try simp at h
    split at h <;> try simp at h
    split at h <;> try simp at h
    simp_all
  · rintro ⟨h1, h2, h3, h4, h5, rfl⟩
    rw [if_neg h1, if_neg (by simp [h2]), if_neg (by simp [h3]), if_neg (by omega), if_neg (by simp [h5]), if_neg (by simp)]

/-- An emission answers a next state in two ways: `INTERNAL`, or the code appended and the rest done. -/
theorem emitPrefix_cases {s t : State} {goOn : State → Host.Outcome State Fault Refusal}
    (h : emitPrefix s goOn = .next t) :
    (memReadDict s.dict s.pfx = none ∧ t = raise .internal s) ∨
    ∃ p u, memReadDict s.dict s.pfx = some p ∧ bpAppend p.toNat (width s) s = .next u ∧ goOn u = .next t := by
  unfold emitPrefix dictLookup at h
  split at h
  · next hp => exact .inl ⟨hp, (Host.Outcome.next.inj h).symm⟩
  · next p hp =>
    obtain ⟨u, hu, ht⟩ := (andThen_eq_next_iff _ _ _).1 h
    exact .inr ⟨p, u, hp, hu, ht⟩

/-- After an emission the miss arm resets, raises `CAPACITY`, or inserts (43_driver.md R145). -/
theorem learnOrReset_cases {c : Byte} {s t : State} (h : learnOrReset c s = .next t) :
    (resetDue s = true ∧ t = setPrefix [c] (countedReset s)) ∨
    (resetDue s = false ∧ capacityFull s = true ∧ t = raise .capacity s) ∨
    (resetDue s = false ∧ capacityFull s = false ∧ ∃ u, dictInsert (candidate c s) (nextCode s) s = .next u ∧
      t = setPrefix [c] u) := by
  unfold learnOrReset at h
  split at h
  · next hd => exact .inl ⟨hd, (Host.Outcome.next.inj h).symm⟩
  · next hd =>
    split at h
    · next hc => exact .inr (.inl ⟨by simpa using hd, hc, (Host.Outcome.next.inj h).symm⟩)
    · next hc =>
      obtain ⟨u, hu, ht⟩ := (andThen_eq_next_iff _ _ _).1 h
      exact .inr (.inr ⟨by simpa using hd, by simpa using hc, u, hu, (Host.Outcome.next.inj ht).symm⟩)

/-- What `BYTE` can do, by the state it is issued in (43_driver.md R141). -/
theorem execByte_cases {c : Byte} {s t : State} (h : execByte c s = .next t) :
    ((s.state = .idle ∨ s.state = .done) ∧ t = raise .protocol s) ∨
    (s.state = .awaitFirstByte ∧ t = byteFirst c s) ∨
    (s.state = .matching ∧ hit c s = true ∧ t = setPrefix (candidate c s) (countByte s)) ∨
    (s.state = .matching ∧ hit c s = false ∧ emitPrefix (countByte s) (learnOrReset c) = .next t) ∨
    (s.state = .failed ∧ t = s) := by
  unfold execByte at h
  split at h
  · next hs =>
    rw [protocolError_live s (by simp [hs])] at h
    exact .inl ⟨.inl hs, (Host.Outcome.next.inj h).symm⟩
  · next hs => exact .inr (.inl ⟨hs, (Host.Outcome.next.inj h).symm⟩)
  · next hs =>
    unfold byteMatching at h
    split at h
    · next hh => exact .inr (.inr (.inl ⟨hs, hh, (Host.Outcome.next.inj h).symm⟩))
    · next hh => exact .inr (.inr (.inr (.inl ⟨hs, by simpa using hh, h⟩)))
  · next hs =>
    rw [protocolError_live s (by simp [hs])] at h
    exact .inl ⟨.inr hs, (Host.Outcome.next.inj h).symm⟩
  · next hs => exact .inr (.inr (.inr (.inr ⟨hs, (Host.Outcome.next.inj h).symm⟩)))

/-- What `EOS` can do, by the state it is issued in (43_driver.md R141). -/
theorem execEos_cases {s t : State} (h : execEos s = .next t) :
    ((s.state = .idle ∨ s.state = .done) ∧ t = raise .protocol s) ∨
    (s.state = .awaitFirstByte ∧ t = raise .input s) ∨
    (s.state = .matching ∧ memReadDict s.dict s.pfx = none ∧ t = raise .internal s) ∨
    (s.state = .matching ∧ ∃ p u v, memReadDict s.dict s.pfx = some p ∧ bpAppend p.toNat (width s) s = .next u ∧
      bpFlush u = .next v ∧ t = finishRun v) ∨
    (s.state = .failed ∧ t = s) := by
  unfold execEos at h
  split at h
  · next hs =>
    rw [protocolError_live s (by simp [hs])] at h
    exact .inl ⟨.inl hs, (Host.Outcome.next.inj h).symm⟩
  · next hs => exact .inr (.inl ⟨hs, (Host.Outcome.next.inj h).symm⟩)
  · next hs =>
    rcases emitPrefix_cases h with ⟨hp, ht⟩ | ⟨p, u, hp, hu, ht⟩
    · exact .inr (.inr (.inl ⟨hs, hp, ht⟩))
    · obtain ⟨v, hv, hv'⟩ := (andThen_eq_next_iff _ _ _).1 ht
      exact .inr (.inr (.inr (.inl ⟨hs, p, u, v, hp, hu, hv, (Host.Outcome.next.inj hv').symm⟩)))
  · next hs =>
    rw [protocolError_live s (by simp [hs])] at h
    exact .inl ⟨.inr hs, (Host.Outcome.next.inj h).symm⟩
  · next hs => exact .inr (.inr (.inr (.inr ⟨hs, (Host.Outcome.next.inj h).symm⟩)))

/-- What `START` can do (43_driver.md R142, R150). -/
theorem execStart_cases {mw : BitVec 6} {pol : Policy} {s t : State} (h : execStart mw pol s = .next t) :
    (takesStart s = false ∧ s.state ≠ .failed ∧ t = raise .protocol s) ∨
    (takesStart s = true ∧ mwValid mw = true ∧ t = enterRun singletons 255#32 (openRun mw pol s)) ∨
    (takesStart s = true ∧ mwValid mw = false ∧ t = raiseConfig (openRun mw pol s)) := by
  have key : ∀ t, .next (startAccepted mw pol s) = (.next t : Host.Outcome State Fault Refusal) →
      (mwValid mw = true ∧ t = enterRun singletons 255#32 (openRun mw pol s)) ∨
      (mwValid mw = false ∧ t = raiseConfig (openRun mw pol s)) := by
    intro t h
    obtain rfl : startAccepted mw pol s = t := by simpa using h
    unfold startAccepted
    split
    · next hv => exact .inl ⟨hv, rfl⟩
    · next hv => exact .inr ⟨by simpa using hv, rfl⟩
  unfold execStart at h
  split at h
  · next hs => exact .inr ((key t h).imp (fun h => ⟨by simp [takesStart, hs], h⟩) (fun h => ⟨by simp [takesStart, hs], h⟩))
  · next hs =>
    rw [protocolError_live s (by simp [hs])] at h
    exact .inl ⟨by simp [takesStart, hs], by simp [hs], (Host.Outcome.next.inj h).symm⟩
  · next hs =>
    rw [protocolError_live s (by simp [hs])] at h
    exact .inl ⟨by simp [takesStart, hs], by simp [hs], (Host.Outcome.next.inj h).symm⟩
  · next hs => exact .inr ((key t h).imp (fun h => ⟨by simp [takesStart, hs], h⟩) (fun h => ⟨by simp [takesStart, hs], h⟩))
  · next hs => exact .inr ((key t h).imp (fun h => ⟨by simp [takesStart, hs], h⟩) (fun h => ⟨by simp [takesStart, hs], h⟩))

/-- What `IOERR` can do (43_driver.md R148, R150, R151). -/
theorem execIoerr_cases {s t : State} (h : execIoerr s = .next t) :
    ((s.state = .idle ∨ s.state = .done) ∧ t = raise .protocol s) ∨
    ((s.state = .awaitFirstByte ∨ s.state = .matching) ∧ t = raise .io s) ∨
    (s.state = .failed ∧ t = s) := by
  unfold execIoerr at h
  split at h
  · next hs =>
    rw [protocolError_live s (by simp [hs])] at h
    exact .inl ⟨.inl hs, (Host.Outcome.next.inj h).symm⟩
  · next hs => exact .inr (.inl ⟨.inl hs, (Host.Outcome.next.inj h).symm⟩)
  · next hs => exact .inr (.inl ⟨.inr hs, (Host.Outcome.next.inj h).symm⟩)
  · next hs =>
    rw [protocolError_live s (by simp [hs])] at h
    exact .inl ⟨.inr hs, (Host.Outcome.next.inj h).symm⟩
  · next hs => exact .inr (.inr ⟨hs, (Host.Outcome.next.inj h).symm⟩)

end Sys2Proof.Machine
end

