-- ==== Sys2Proof/Laws/Step.lean ====
section
/-! SUPPORT. What a step can do: nothing, or the oldest waiting move; and what each move can do. -/

namespace Sys2Proof.Machine

theorem step_cases {s t : State} (h : step s = .next t) :
    (s.inputs = [] ∧ t = s) ∨
    ∃ x later, s.inputs = x :: later ∧ takeInput x (setInputs later s) = .next t := by
  unfold step takeNext at h
  split at h
  · next hi => exact .inl ⟨hi, (Host.Outcome.next.inj h).symm⟩
  · next x later hi => exact .inr ⟨x, later, hi, h⟩

/-- What a seeded construction can do (60_exceptions.md R186). -/
theorem startSeeded_cases {mw : BitVec 6} {pol : Policy} {d : Dict} {last : Code} {s t : State}
    (h : startSeeded mw pol d last s = .next t) :
    (takesStart s = false ∧ s.state ≠ .failed ∧ t = raise .protocol s) ∨
    (takesStart s = true ∧ mwValid mw = false ∧ t = raiseConfig (openRun mw pol s)) ∨
    (takesStart s = true ∧ mwValid mw = true ∧ seedUsable d last = true ∧ storeHolds d = true ∧
      t = enterRun d last (openRun mw pol s)) := by
  have key : seededAccepted mw pol d last s = .next t →
      (mwValid mw = false ∧ t = raiseConfig (openRun mw pol s)) ∨
      (mwValid mw = true ∧ seedUsable d last = true ∧ storeHolds d = true ∧ t = enterRun d last (openRun mw pol s)) := by
    intro h
    unfold seededAccepted at h
    split at h
    · next hv => exact .inl ⟨hv, (Host.Outcome.next.inj h).symm⟩
    · next hv =>
      split at h
      · simp at h
      · next hu =>
        split at h
        · simp at h
        · next hh => exact .inr ⟨by simpa using hv, by simpa using hu, by simpa using hh, (Host.Outcome.next.inj h).symm⟩
  unfold startSeeded at h
  split at h
  · next hs => exact .inr ((key h).imp (fun h => ⟨by simp [takesStart, hs], h⟩) (fun h => ⟨by simp [takesStart, hs], h⟩))
  · next hs =>
    rw [protocolError_live s (by simp [hs])] at h
    exact .inl ⟨by simp [takesStart, hs], by simp [hs], (Host.Outcome.next.inj h).symm⟩
  · next hs =>
    rw [protocolError_live s (by simp [hs])] at h
    exact .inl ⟨by simp [takesStart, hs], by simp [hs], (Host.Outcome.next.inj h).symm⟩
  · next hs => exact .inr ((key h).imp (fun h => ⟨by simp [takesStart, hs], h⟩) (fun h => ⟨by simp [takesStart, hs], h⟩))
  · next hs => exact .inr ((key h).imp (fun h => ⟨by simp [takesStart, hs], h⟩) (fun h => ⟨by simp [takesStart, hs], h⟩))

/-- What a request that spells no instruction can do (43_driver.md R149, R151). -/
theorem rejectRequest_cases {why : DecodeReject} {s t : State} (h : rejectRequest why s = .next t) :
    t = protocolError s := by
  cases why <;> simp [rejectRequest] at h <;> exact h.symm

end Sys2Proof.Machine
end

