-- ==== Sys2Proof/Laws/Invariant.lean ====
section
/-! SUPPORT. What each shared operation keeps: soundness of the state, and the invariant of a run. -/

namespace Sys2Proof.Machine

theorem length_freeAcc (n : Nat) : (freeAcc n).length ≤ 7 := by simp [freeAcc]

theorem freePrefix_ne_nil (n : Nat) : freePrefix n ≠ [] := by simp [freePrefix]

/-- Soundness is about five fields. -/
theorem Sound.congr {s t : State} (h : Sound s) (hd : t.dict = s.dict) (ha : t.acc = s.acc) (hp : t.pfx = s.pfx)
    (he : t.err = s.err) (hs : t.state = s.state) : Sound t where
  dictWf := hd ▸ h.dictWf
  accShort := ha ▸ h.accShort
  prefixNonempty := hp ▸ h.prefixNonempty
  errNone := by rw [he, hs]; exact h.errNone

/-- Error entry keeps a sound state sound. -/
theorem Sound.raise {s : State} (h : Sound s) {k : ErrKind} (hk : k ≠ .none) : Sound (raise k s) where
  dictWf := h.dictWf
  accShort := length_freeAcc _
  prefixNonempty := freePrefix_ne_nil _
  errNone := by simp [hk]

theorem Sound.protocolError {s : State} (h : Sound s) : Sound (protocolError s) := by
  by_cases hs : s.state = .failed
  · rwa [protocolError_failed s hs]
  · rw [protocolError_live s hs]
    exact h.raise (by simp)

theorem Sound.bpAppend {s t : State} {code w : Nat} (h : Sound s) (ht : bpAppend code w s = .next t) : Sound t where
  dictWf := bpAppend_dict ht ▸ h.dictWf
  accShort := (bpAppend_spec ht).2.2.1.2.1
  prefixNonempty := bpAppend_pfx ht ▸ h.prefixNonempty
  errNone := by rw [bpAppend_err ht, bpAppend_state ht]; exact h.errNone

theorem Sound.bpFlush {s t : State} (h : Sound s) (ht : bpFlush s = .next t) : Sound t where
  dictWf := bpFlush_dict ht ▸ h.dictWf
  accShort := by rw [(bpFlush_spec ht).2.2.2.2.2]; simp
  prefixNonempty := bpFlush_pfx ht ▸ h.prefixNonempty
  errNone := by rw [bpFlush_err ht, bpFlush_state ht]; exact h.errNone

/-- A write of the dictionary store keeps its canonical form. -/
theorem Sound.dictInsert {s t : State} {key : Key} {code : Nat} (h : Sound s) (ht : dictInsert key code s = .next t) :
    Sound t := by
  obtain ⟨hk, ha, -, -, hc, rfl⟩ := (dictInsert_eq_next_iff key code s t).1 ht
  exact ⟨dictWf_memWriteDict h.dictWf hk ha hc, h.accShort, h.prefixNonempty, h.errNone⟩

theorem Sound.dictReset {s : State} (h : Sound s) : Sound (dictReset s) :=
  ⟨dictWf_singletons, h.accShort, h.prefixNonempty, h.errNone⟩

theorem Sound.setPrefix {s : State} (h : Sound s) {key : Key} (hk : key ≠ []) : Sound (setPrefix key s) :=
  ⟨h.dictWf, h.accShort, hk, h.errNone⟩

/-- The end of a run keeps a sound state sound. -/
theorem Sound.finishRun {s : State} (h : Sound s) (hs : s.state ≠ .failed) : Sound (finishRun s) :=
  ⟨h.dictWf, h.accShort, freePrefix_ne_nil _, ⟨fun _ => by simp, fun _ => h.errNone.2 hs⟩⟩

theorem Sound.raiseConfig {s : State} (h : Sound s) (mw : BitVec 6) (pol : Policy) :
    Sound (raiseConfig (openRun mw pol s)) :=
  ⟨h.dictWf, by simp, freePrefix_ne_nil _, by simp⟩

theorem sound_enterRun {d : Dict} (hd : dictWf d = true) (last : Code) (mw : BitVec 6) (pol : Policy) (s : State) :
    Sound (enterRun d last (openRun mw pol s)) :=
  ⟨hd, by simp, freePrefix_ne_nil _, by simp⟩

theorem sound_hardReset (s : State) : Sound (hardReset s) :=
  ⟨dictWf_dictOfEntries _, length_freeAcc _, freePrefix_ne_nil _, by simp⟩

/-- The run invariant is about the fields a run reads. -/
theorem RunInv.congr {s t : State} (h : RunInv s) (h1 : t.dict = s.dict) (h2 : t.lastAssignedCode = s.lastAssignedCode)
    (h3 : t.policy = s.policy) (h4 : t.maxWidth = s.maxWidth) (h5 : t.state = s.state) (h6 : t.pfx = s.pfx)
    (h7 : t.acc = s.acc) (h8 : t.out = s.out) (h9 : t.codes = s.codes) (h10 : t.flushed = s.flushed) : RunInv t := by
  constructor <;> simp only [h1, h2, h3, h4, h5, h6, h7, h8, h9, h10]
  exacts [h.dict, h.lastLow, h.lastHigh, h.cfgValid, h.matched, h.accDone, h.bitsOpen, h.bitsDone, h.emissions, h.fresh,
    h.emitted, h.closed]

theorem RunInv.packerOpen {s : State} (h : RunInv s) (hm : s.state = .matching) : s.flushed = false := by
  have := h.closed
  rw [hm] at this
  simpa using this

/-- An append in `MATCHING` keeps the run invariant: the stream's bits and the emitted codes grow together. -/
theorem RunInv.bpAppend {s u : State} {code w : Nat} (h : RunInv s) (hm : s.state = .matching)
    (hu : bpAppend code w s = .next u) : RunInv u where
  dict := by rw [bpAppend_dict hu, bpAppend_lastAssignedCode hu]; exact h.dict
  lastLow := by rw [bpAppend_lastAssignedCode hu]; exact h.lastLow
  lastHigh := by rw [bpAppend_lastAssignedCode hu, bpAppend_policy hu, bpAppend_maxWidth hu]; exact h.lastHigh
  cfgValid := by rw [bpAppend_maxWidth hu]; exact h.cfgValid
  matched := by rw [bpAppend_state hu, bpAppend_dict hu, bpAppend_pfx hu]; exact h.matched
  accDone := by rw [bpAppend_state hu, hm]; simp
  bitsOpen := by
    intro _
    obtain ⟨-, -, ⟨hbits, -, hcodes⟩, -⟩ := bpAppend_spec hu
    rw [hbits, hcodes, h.bitsOpen (by simp [hm]), codeBits_append, codeBits_singleton]
  bitsDone := by rw [bpAppend_state hu, hm]; simp
  emissions := by
    obtain ⟨hfit, -, ⟨-, -, hcodes⟩, -⟩ := bpAppend_spec hu
    intro e he
    rw [hcodes] at he
    rcases List.mem_append.1 he with he | he
    · exact h.emissions e he
    · rw [List.mem_singleton.1 he]
      exact hfit
  fresh := by rw [bpAppend_state hu, hm]; simp
  emitted := by rw [bpAppend_state hu, hm]; simp
  closed := by rw [bpAppend_state hu, bpAppend_flushed hu]; exact h.closed

/-- A run begins in the run invariant. -/
theorem runInv_enterRun {d : Dict} {last : Code} (hd : DictInv d last) {mw : BitVec 6} (hv : mwValid mw = true)
    {pol : Policy} (hb : pol = .boundedReset → last.toNat ≤ 2 ^ mw.toNat - 1) (s : State) :
    RunInv (enterRun d last (openRun mw pol s)) where
  dict := hd
  lastLow := hd.last_ge
  lastHigh := hb
  cfgValid := hv
  matched := by simp
  accDone := by simp
  bitsOpen := by simp
  bitsDone := by simp
  emissions := by simp
  fresh := by simp
  emitted := by simp
  closed := by simp

/-- The queue stands outside the invariant. -/
theorem Inv.setInputs {s : State} (h : Inv s) (later : List Input) : Inv (setInputs later s) :=
  ⟨h.1.congr rfl rfl rfl rfl rfl, fun hr => (h.2 hr).congr rfl rfl rfl rfl rfl rfl rfl rfl rfl rfl⟩

/-- A state in `FAILED` need only be sound. -/
theorem inv_of_failed {s : State} (h : Sound s) (hs : s.state = .failed) : Inv s := ⟨h, by simp [inRun, hs]⟩

/-- A valid `max_width` bounds the counter between 511 and the top of its 32 bits (43_driver.md R141). -/
theorem two_pow_bounds {mw : BitVec 6} (h : mwValid mw = true) : 512 ≤ 2 ^ mw.toNat ∧ 2 ^ mw.toNat ≤ 2 ^ 32 := by
  obtain ⟨h9, h32⟩ := (mwValid_iff mw).1 h
  exact ⟨le_trans (by norm_num) (Nat.pow_le_pow_right (by omega) h9), Nat.pow_le_pow_right (by omega) h32⟩

/-- `DRAIN` reads and writes `acc` and `out` alone, so the byte count commutes with it. -/
theorem countByte_drainLoop (turns : Nat) (s : State) :
    countByte (drainLoop turns s) = drainLoop turns (countByte s) := by
  induction turns generalizing s with
  | zero => rfl
  | succ turns ih =>
    by_cases h8 : 8 ≤ s.acc.length
    · rw [drainLoop, drainLoop, if_pos h8, if_pos (by simpa using h8), ih]
      rfl
    · rw [drainLoop, drainLoop, if_neg h8, if_neg (by simpa using h8)]

/-- An append does not see the byte count. -/
theorem bpAppend_countByte {code w : Nat} {s u : State} (hu : bpAppend code w s = .next u) :
    bpAppend code w (countByte s) = .next (countByte u) := by
  obtain ⟨hr, hf, rfl⟩ := (bpAppend_eq_next_iff _ _ _ _).1 hu
  rw [bpAppend_eq_next_iff]
  refine ⟨hr, hf, ?_⟩
  unfold drain
  rw [countByte_drainLoop]
  rfl

/-- In a matching state of a run the prefix's code can be appended at the current width. -/
theorem RunInv.emit {s : State} (h : RunInv s) (hm : s.state = .matching) {p : Code}
    (hp : memReadDict s.dict s.pfx = some p) : ∃ u, Machine.bpAppend p.toNat (width s) s = .next u :=
  bpAppend_completes (append_inRange_of_le (h.dict.read_le hp)) (h.packerOpen hm)

end Sys2Proof.Machine
end

