-- ==== Sys2Proof/Laws/PerInstr.lean ====
section
/-! SUPPORT. Statements made for every instruction, one lemma per constructor. -/

namespace Sys2Proof.Laws.EncodingMatchesTable

open Sys2Proof

/-- The columns "match" and "mask" of the instruction's row in spec/opcode_table.json. -/
def row : Instr → Nat × Nat
  | .byte _ => (0x000, 0x300)
  | .eos => (0x100, 0x3FF)
  | .start _ _ => (0x200, 0x380)
  | .ioerr => (0x300, 0x3FF)
  | .dictLookup _ => (0x1, 0xF)
  | .dictInsert _ _ => (0x2, 0xF)
  | .dictReset => (0x3, 0xF)
  | .cwWidth => (0x4, 0xF)
  | .cwResetDue => (0x5, 0xF)
  | .bpAppend _ _ => (0x6, 0xF)
  | .bpFlush => (0x7, 0xF)

/-- The number the table's columns are about: the command word, or the `uop`. -/
def wordOf : Request → Nat
  | .word cmd => cmd.toNat
  | .call uop _ => uop.toNat

/-- The instruction's encoding has the fixed bits its row of spec/opcode_table.json gives (30_encoding.md R81 to R84,
R87). -/
def Statement (i : Instr) : Prop := wordOf (encode i) &&& (row i).2 = (row i).1

theorem byte (c : Byte) : Statement (.byte c) := by
  unfold Statement
  revert c
  decide

theorem eos : Statement .eos := rfl

theorem start (mw : BitVec 6) (pol : Policy) : Statement (.start mw pol) := by
  unfold Statement
  cases pol <;> (revert mw; decide)

theorem ioerr : Statement .ioerr := rfl

theorem dictLookup (key : Key) : Statement (.dictLookup key) := by
  show ((1#4 : BitVec 4).toNat &&& 0xF) = 0x1
  decide

theorem dictInsert (key : Key) (code : Nat) : Statement (.dictInsert key code) := by
  show ((2#4 : BitVec 4).toNat &&& 0xF) = 0x2
  decide

theorem dictReset : Statement .dictReset := rfl

theorem cwWidth : Statement .cwWidth := rfl

theorem cwResetDue : Statement .cwResetDue := rfl

theorem bpAppend (code width : Nat) : Statement (.bpAppend code width) := by
  show ((6#4 : BitVec 4).toNat &&& 0xF) = 0x6
  decide

theorem bpFlush : Statement .bpFlush := rfl

end Sys2Proof.Laws.EncodingMatchesTable
end

