-- ==== Sys2Proof/Tests/Slice0.lean ====
section
/-! SUPPORT. Tests with results taken from the spec, and for every statement with hypotheses a named witness that meets
them. -/

namespace Sys2Proof.Tests

open Sys2Proof Sys2Proof.Machine

/-! ## Well-formedness: an ill-formed term for each check, refused -/

theorem test_wf_lookup_empty_key : (Instr.dictLookup []).wellFormed = false := by decide
theorem test_wf_insert_empty_key : (Instr.dictInsert [] 256).wellFormed = false := by decide
theorem test_wf_insert_code_zero : (Instr.dictInsert [0x61#8] 0).wellFormed = false := by decide
theorem test_wf_insert_code_34_bits : (Instr.dictInsert [0x61#8] (2 ^ 32 + 1)).wellFormed = false := by decide
theorem test_wf_append_narrow : (Instr.bpAppend 1 7).wellFormed = false := by decide
theorem test_wf_append_wide : (Instr.bpAppend 1 33).wellFormed = false := by decide
theorem test_wf_append_code_too_big : (Instr.bpAppend 256 8).wellFormed = false := by decide
theorem test_wf_accepted : (Instr.dictInsert [0x61#8, 0x61#8] (2 ^ 32)).wellFormed = true ∧
    (Instr.bpAppend 255 8).wellFormed = true ∧ (Instr.start 63#6 .growthOnly).wellFormed = true := by decide

/-! ## Decoding: words written out from 30_encoding.md R81 to R85, R87 -/

theorem test_decode_byte : decode (.word 0b0011111110#10) = .ok (.byte 0xFE#8) := by decide
theorem test_decode_eos : decode (.word 0b0100000000#10) = .ok .eos := by decide
theorem test_decode_start_reset : decode (.word 0b1000001100#10) = .ok (.start 12#6 .boundedReset) := by decide
theorem test_decode_start_growth : decode (.word 0b1001010100#10) = .ok (.start 20#6 .growthOnly) := by decide
theorem test_decode_ioerr : decode (.word 0b1100000000#10) = .ok .ioerr := by decide
theorem test_decode_illegal : decode (.word 0b0100000001#10) = .error .eosLowBits ∧
    decode (.word 0b1010000000#10) = .error .startReservedBit ∧
    decode (.word 0b1110000000#10) = .error .ioerrLowBits := by decide
theorem test_decode_lookup : decode (.call 0b0001#4 ⟨[0x61#8], 7, 9⟩) = .ok (.dictLookup [0x61#8]) := by decide
theorem test_decode_insert : decode (.call 0b0010#4 ⟨[0x61#8], 7, 9⟩) = .ok (.dictInsert [0x61#8] 7) := by decide
theorem test_decode_reset : decode (.call 0b0011#4 ⟨[0x61#8], 7, 9⟩) = .ok .dictReset := by decide
theorem test_decode_width : decode (.call 0b0100#4 ⟨[0x61#8], 7, 9⟩) = .ok .cwWidth := by decide
theorem test_decode_reset_due : decode (.call 0b0101#4 ⟨[0x61#8], 7, 9⟩) = .ok .cwResetDue := by decide
theorem test_decode_append : decode (.call 0b0110#4 ⟨[0x61#8], 7, 9⟩) = .ok (.bpAppend 7 9) := by decide
theorem test_decode_flush : decode (.call 0b0111#4 ⟨[0x61#8], 7, 9⟩) = .ok .bpFlush := by decide
theorem test_decode_unnamed_uop : decode (.call 0b1000#4 bareOperands) = .error .unknownUop := by decide

theorem test_table_word : decodeTableWord 16 0b0001100001 = some (.byte 0x61#8) ∧
    decodeTableWord 16 0b1000001001 = some (.start 9#6 .boundedReset) ∧
    decodeTableWord 8 0b0110 = some (.bpAppend 1 8) ∧ decodeTableWord 16 0x101 = none ∧
    decodeTableWord 8 0 = none := by decide

theorem test_fetch_command : step (State.reset.withFetchWord 16 0b0001100001) = exec (.byte 0x61#8) State.reset := rfl
theorem test_fetch_call : step (State.reset.withFetchWord 8 0b0011) = exec .dictReset State.reset := rfl

/-! ## The instructions, on small states -/

/-- What `f` reads of the next state. -/
def after {α : Type} (o : Host.Outcome State Fault Refusal) (f : State → α) : Option α :=
  match o with
  | .next t => some (f t)
  | .fault _ => none
  | .refused _ => none

theorem exists_of_after {α : Type} {o : Host.Outcome State Fault Refusal} {f : State → α} {a : α}
    (h : after o f = some a) : ∃ t, o = .next t ∧ f t = a := by
  cases o with
  | next t => exact ⟨t, rfl, Option.some.inj h⟩
  | fault r => exact absurd h (Option.some_ne_none a).symm
  | refused r => exact absurd h (Option.some_ne_none a).symm

/-- A state of a run at its beginning. -/
def fresh (mw : BitVec 6) (pol : Policy) : State :=
  { State.reset with maxWidth := mw, policy := pol, state := .awaitFirstByte, dict := singletons,
                     lastAssignedCode := 255#32 }

/-- A matching state with the given dictionary, counter and prefix. -/
def midRun (mw : BitVec 6) (pol : Policy) (d : Dict) (last : Code) (key : Key) : State :=
  { fresh mw pol with state := .matching, dict := d, lastAssignedCode := last, pfx := key }

/-- A finished run of the one byte 0x41 (95_test_vectors.md, scenario A). -/
def finished : State :=
  { fresh 12#6 .boundedReset with state := .done, pfx := [0x41#8], out := [0x41#8], nIn := 1, codes := [⟨65, 8⟩],
                                  flushed := true }

/-- A run that has failed. -/
def broken : State := { State.reset with state := .failed, err := .io }

/-- 43_driver.md R145, the example: the second byte of "aaaa". -/
theorem test_byte_miss : after (exec (.byte 0x61#8) (midRun 12#6 .boundedReset [⟨[0x61#8], 97#32⟩] 255#32 [0x61#8]))
    (fun t => (t.out, t.dict, t.pfx)) =
    some ([0x61#8], [⟨[0x61#8], 97#32⟩, ⟨[0x61#8, 0x61#8], 256#32⟩], [0x61#8]) := by decide

set_option maxRecDepth 20000 in
/-- 41_code_width.md R123: the counter is full at width 9. -/
theorem test_byte_reset : after (exec (.byte 0x62#8) (midRun 9#6 .boundedReset [⟨[0x61#8], 97#32⟩] 511#32 [0x61#8]))
    (fun t => (t.codes, t.lastAssignedCode, t.dict.length, t.nResets)) =
    some ([⟨97, 9⟩], 255#32, 256, 1) := by decide

/-- 43_driver.md R146, scenario A. -/
theorem test_eos_one_byte : after (exec .eos (midRun 12#6 .boundedReset [⟨[0x41#8], 65#32⟩] 255#32 [0x41#8]))
    (fun t => (t.out, t.state, t.acc)) = some ([0x41#8], .done, []) := by decide

/-- 95_test_vectors.md section 1, the end of scenario B. -/
theorem test_eos_pads : after (exec .eos { midRun 12#6 .boundedReset [⟨[0x61#8], 97#32⟩] 257#32 [0x61#8] with
    out := [0x61#8, 0x80#8], acc := [false] }) (fun t => t.out) =
    some [0x61#8, 0x80#8, 0x18#8, 0x40#8] := by decide

/-- 43_driver.md R142, the first example. -/
theorem test_start : after (exec (.start 12#6 .boundedReset) State.reset)
    (fun t => (t.state, t.lastAssignedCode, width t, t.out)) = some (.awaitFirstByte, 255#32, 8, []) := by decide

/-- 43_driver.md R142, the second example, after a finished run. -/
theorem test_start_rejected : after (exec (.start 8#6 .boundedReset) finished)
    (fun t => (t.state, t.err, t.out, t.maxWidth)) = some (.failed, .config, [], 8#6) := by decide

/-- 43_driver.md R148, the example. -/
theorem test_ioerr : after (exec .ioerr { midRun 12#6 .boundedReset [] 257#32 [0x61#8] with
    out := [0x61#8, 0x80#8] }) (fun t => (t.state, t.err, t.out)) = some (.failed, .io, [0x61#8, 0x80#8]) := by decide

/-- 40_dictionary.md R100, the example. -/
theorem test_lookup : after (exec (.dictLookup [0x61#8, 0x61#8])
    (midRun 12#6 .boundedReset [⟨[0x61#8], 97#32⟩, ⟨[0x61#8, 0x61#8], 256#32⟩] 256#32 [0x61#8])) (fun t => t.answer) =
    some (.code (some 256#32)) := by decide

theorem test_lookup_absent : after (exec (.dictLookup [0x61#8, 0x61#8])
    (midRun 12#6 .boundedReset [⟨[0x61#8], 97#32⟩] 255#32 [0x61#8])) (fun t => t.answer) =
    some (.code none) := by decide

/-- 40_dictionary.md R101, the example: the width rises to 9. -/
theorem test_insert : after (exec (.dictInsert [0x61#8, 0x61#8] 256)
    (midRun 12#6 .boundedReset [⟨[0x61#8], 97#32⟩] 255#32 [0x61#8]))
    (fun t => (memReadDict t.dict [0x61#8, 0x61#8], t.lastAssignedCode, width t)) =
    some (some 256#32, 256#32, 9) := by decide

set_option maxRecDepth 20000 in
/-- 40_dictionary.md R102, the example. -/
theorem test_reset : after (exec .dictReset (midRun 12#6 .boundedReset [⟨[0x00#8, 0x00#8], 511#32⟩] 511#32 [0x61#8]))
    (fun t => (t.dict.length, t.lastAssignedCode, width t, memReadDict t.dict [0x00#8, 0x00#8])) =
    some (256, 255#32, 8, none) := by decide

/-- 41_code_width.md R115: 511 gives 9, 512 gives 10. -/
theorem test_width : after (exec .cwWidth (midRun 12#6 .boundedReset [] 511#32 [])) (fun t => t.answer) =
      some (.width 9) ∧
    after (exec .cwWidth (midRun 12#6 .boundedReset [] 512#32 [])) (fun t => t.answer) = some (.width 10) := by decide

/-- 41_code_width.md R115: below 128 the clamp acts. -/
theorem test_width_clamped : after (exec .cwWidth (midRun 12#6 .boundedReset [] 5#32 [])) (fun t => t.answer) =
    some (.width 8) := by decide

/-- 41_code_width.md R116, the example. -/
theorem test_reset_due : after (exec .cwResetDue (midRun 12#6 .boundedReset [] 4095#32 [])) (fun t => t.answer) =
      some (.resetDue true) ∧
    after (exec .cwResetDue (midRun 13#6 .boundedReset [] 4095#32 [])) (fun t => t.answer) =
      some (.resetDue false) := by decide

/-- 41_code_width.md R116, R121: the sum is not wrapped, and `GROWTH_ONLY` never resets. -/
theorem test_reset_due_top : after (exec .cwResetDue (midRun 32#6 .boundedReset [] 0xFFFFFFFF#32 []))
      (fun t => t.answer) = some (.resetDue true) ∧
    after (exec .cwResetDue (midRun 32#6 .growthOnly [] 0xFFFFFFFF#32 [])) (fun t => t.answer) =
      some (.resetDue false) := by decide

/-- 42_bit_packer.md R125, the example. -/
theorem test_append : after (exec (.bpAppend 97 9) { State.reset with acc := [false] }) (fun t => (t.out, t.acc)) =
    some ([0x18#8], [false, true]) := by decide

/-- 42_bit_packer.md R125: 7 bits and 32 more give 4 bytes and leave 7. -/
theorem test_append_longest : after (exec (.bpAppend 0xFFFFFFFF 32) { State.reset with acc := List.replicate 7 false })
    (fun t => (t.out, t.acc)) = some ([0x01#8, 0xFF#8, 0xFF#8, 0xFF#8], List.replicate 7 true) := by decide

/-- 42_bit_packer.md R127, the example and a corner case. -/
theorem test_flush : after (exec .bpFlush { State.reset with acc := [false, true] }) (fun t => (t.out, t.acc)) =
      some ([0x40#8], []) ∧
    after (exec .bpFlush { State.reset with acc := [true, true, false, true, true, true, true] }) (fun t => t.out) =
      some [0xDE#8] := by decide

theorem test_flush_empty : after (exec .bpFlush finished) (fun t => t.out) = none ∧
    after (exec .bpFlush State.reset) (fun t => t.out) = some [] := by decide

/-- 42_bit_packer.md R130 on the byte of the example of R125. -/
theorem test_numeric : numericAppend 97 9 (numericOf [false]) = ⟨97, 10⟩ ∧ numericByte ⟨97, 10⟩ = 0x18#8 ∧
    numericFlushByte (numericOf [false, true]) = 0x40#8 := by decide

/-- 10_state.md R23, R24, R32. -/
theorem test_status : stateBits .failed = 4#3 ∧ errBits .capacity = 6#3 ∧ doneOutput finished = true ∧
    failedOutput finished = false ∧ failedOutput broken = true := by decide

/-! ## The states of the witnesses meet the invariant -/

theorem sound_fresh (mw : BitVec 6) (pol : Policy) : Sound (fresh mw pol) :=
  ⟨dictWf_singletons, Nat.zero_le 7, List.cons_ne_nil _ _, ⟨fun _ => by simp [fresh], fun _ => rfl⟩⟩

theorem inv_reset : Inv State.reset :=
  ⟨⟨rfl, by decide, by decide, by decide⟩, fun h => by simp [inRun, State.reset] at h⟩

theorem inv_broken : Inv broken := inv_of_failed ⟨rfl, by decide, by decide, by decide⟩ rfl

theorem inv_fresh {mw : BitVec 6} (hv : mwValid mw = true) (pol : Policy) : Inv (fresh mw pol) where
  left := sound_fresh mw pol
  right := fun _ =>
    { dict := dictInv_singletons
      lastLow := dictInv_singletons.last_ge
      lastHigh := fun _ => by have := (two_pow_bounds hv).1; show 255 ≤ 2 ^ mw.toNat - 1; omega
      cfgValid := hv
      matched := fun h => by simp [fresh] at h
      accDone := fun _ => rfl
      bitsOpen := fun _ => rfl
      bitsDone := fun h => by simp [fresh] at h
      emissions := fun e he => absurd he List.not_mem_nil
      fresh := fun _ => rfl
      emitted := fun h => by simp [fresh] at h
      closed := by simp [fresh, State.reset] }

theorem inv_midRun {mw : BitVec 6} {pol : Policy} {d : Dict} {last : Code} {key : Key} (hv : mwValid mw = true)
    (hd : DictInv d last) (hb : pol = .boundedReset → last.toNat ≤ 2 ^ mw.toNat - 1)
    (hk : memReadDict d key ≠ none) : Inv (midRun mw pol d last key) where
  left := ⟨hd.wf, by show (0 : Nat) ≤ 7; omega, hd.key_ne_nil hk, ⟨fun _ => by simp [midRun], fun _ => rfl⟩⟩
  right := fun _ =>
    { dict := hd
      lastLow := hd.last_ge
      lastHigh := hb
      cfgValid := hv
      matched := fun _ => hk
      accDone := fun _ => rfl
      bitsOpen := fun _ => rfl
      bitsDone := fun h => by simp [midRun] at h
      emissions := fun e he => absurd he List.not_mem_nil
      fresh := fun h => by simp [midRun] at h
      emitted := fun h => by simp [midRun] at h
      closed := by simp [midRun, fresh, State.reset] }

theorem inv_finished : Inv finished where
  left := ⟨dictWf_singletons, by decide, by decide, by decide⟩
  right := fun _ =>
    { dict := dictInv_singletons
      lastLow := dictInv_singletons.last_ge
      lastHigh := fun _ => by decide
      cfgValid := by decide
      matched := fun h => by simp [finished] at h
      accDone := fun _ => rfl
      bitsOpen := fun h => absurd rfl h
      bitsDone := fun _ => by decide
      emissions := fun e he => by
        obtain rfl := List.mem_singleton.1 (show e ∈ [⟨65, 8⟩] from he)
        exact ⟨by decide, by decide, by decide⟩
      fresh := fun h => by simp [finished] at h
      emitted := fun _ => by decide
      closed := by simp [finished] }

/-- The matching state whose dictionary is the chain of `n` entries and whose prefix is the byte 1. -/
def chained (mw : BitVec 6) (pol : Policy) (n : Nat) : State :=
  midRun mw pol (chain n) (BitVec.ofNat 32 (n - 1)) [1#8]

theorem inv_chained {mw : BitVec 6} {pol : Policy} {n : Nat} (hv : mwValid mw = true) (h256 : 256 ≤ n)
    (hn : n ≤ 2 ^ 32) (hb : pol = .boundedReset → n ≤ 2 ^ mw.toNat) : Inv (chained mw pol n) := by
  refine inv_midRun hv (dictInv_chain h256 hn) (fun hp => ?_) ?_
  · have := hb hp
    rw [BitVec.toNat_ofNat, Nat.mod_eq_of_lt (by omega)]
    omega
  · rw [memReadDict_chain_singleton h256 hn]
    exact Option.some_ne_none _

theorem chained_hit {n : Nat} (h256 : 256 ≤ n) (hn : n ≤ 2 ^ 32) : memReadDict (chain n) [1#8] = some 1#32 :=
  memReadDict_chain_singleton h256 hn 1#8

theorem chained_miss (n : Nat) : memReadDict (chain n) ([1#8] ++ [1#8]) = none := by
  apply memReadDict_chain_none
  intro k _ h
  have hl := congrArg List.length h
  rw [length_chainKey] at hl
  by_cases hk : k < 256
  · rw [if_pos hk] at hl
    simp at hl
  · unfold chainKey at h
    rw [if_neg hk] at h
    have : (1#8 : Byte) ∈ List.replicate (k - 254) 0#8 := by
      rw [h]
      exact List.mem_cons_self
    exact absurd (List.eq_of_mem_replicate this) (by decide)

theorem chained_counter {n : Nat} (h1 : 1 ≤ n) (hn : n ≤ 2 ^ 32) : (BitVec.ofNat 32 (n - 1)).toNat = n - 1 := by
  rw [BitVec.toNat_ofNat, Nat.mod_eq_of_lt (by omega)]

/-! ## One witness for every statement with hypotheses -/

theorem witness_DecodedRequestsEncodeBack : decode (.word 0b1000001100#10) = .ok (.start 12#6 .boundedReset) ∧
    decode (.call 7#4 bareOperands) = .ok .bpFlush := by decide

theorem witness_IllegalWords_boundaries : ∀ n ∈ [0x101, 0x1FF, 0x280, 0x2FF, 0x301, 0x3FF],
    (decode (.word (BitVec.ofNat 10 n))).isOk = false := by decide

theorem witness_IllegalWords_neighbours : ∀ n ∈ [0x000, 0x0FF, 0x100, 0x200, 0x27F, 0x300],
    (decode (.word (BitVec.ofNat 10 n))).isOk = true := by decide

theorem witness_StepExecutesTheDecodedInstruction :
    ({ State.reset with inputs := [.request (.word 0x041#10)] } : State).inputs = .request (.word 0x041#10) :: [] ∧
    decode (.word 0x041#10) = .ok (.byte 0x41#8) := by decide

theorem witness_StepWithNothingIssuedWaits : State.reset.inputs = [] := rfl

theorem witness_IllegalWordRaisesProtocol :
    decode (.word 0x101#10) = .error .eosLowBits ∧ State.reset.state ≠ .failed ∧ broken.state = .failed ∧
    ({ State.reset with inputs := [.request (.word 0x101#10)] } : State).inputs = .request (.word 0x101#10) :: [] ∧
    ({ broken with inputs := [.request (.word 0x101#10)] } : State).inputs = .request (.word 0x101#10) :: [] := by decide

theorem witness_UnnamedUopIsRefused : ∀ uop ∈ [0#4, 8#4, 15#4],
    ({ State.reset with inputs := [.request (.call uop bareOperands)] } : State).inputs =
      .request (.call uop bareOperands) :: [] ∧ (uop.toNat = 0 ∨ 8 ≤ uop.toNat) := by decide

theorem witness_AcceptedStartConstructsTheRun : ∀ mw ∈ [9#6, 32#6],
    (finished.state = .idle ∨ finished.state = .done ∨ finished.state = .failed) ∧ 9 ≤ mw.toNat ∧ mw.toNat ≤ 32 := by
  decide

theorem witness_RejectedStartRaisesConfig : ∀ mw ∈ [0#6, 8#6, 33#6, 63#6],
    (broken.state = .idle ∨ broken.state = .done ∨ broken.state = .failed) ∧ (mw.toNat < 9 ∨ 32 < mw.toNat) := by decide

theorem witness_ConfigErrorComesFromStartAlone :
    (State.reset.state = .idle ∨ State.reset.state = .done ∨ State.reset.state = .failed) ∧
    ∃ t, exec (.start 8#6 .boundedReset) State.reset = .next t ∧ t.err = .config :=
  ⟨.inl rfl, exists_of_after (f := fun t => t.err) (by decide)⟩

theorem witness_MisplacedCommandRaisesProtocol :
    (((State.reset.state = .idle ∨ State.reset.state = .done) ∧
      ((∃ c, Instr.byte 0#8 = .byte c) ∨ Instr.byte 0#8 = .eos ∨ Instr.byte 0#8 = .ioerr)) ∨
      ((State.reset.state = .awaitFirstByte ∨ State.reset.state = .matching) ∧
        ∃ mw pol, Instr.byte 0#8 = .start mw pol)) ∧
    ((fresh 12#6 .growthOnly).state = .awaitFirstByte ∨ (fresh 12#6 .growthOnly).state = .matching) :=
  ⟨.inl ⟨.inl rfl, .inl ⟨0#8, rfl⟩⟩, .inl rfl⟩

theorem witness_FailedIgnoresAllButStart :
    broken.state = .failed ∧ decode (.word 0x2FF#10) = .error .startReservedBit ∧
    (∃ t, step { broken with inputs := [.hardReset] } = .next t ∧ t.state = .idle) ∧
    ∃ t, step { broken with inputs := [.request (encode (.start 9#6 .boundedReset))] } = .next t ∧
      t.state = .awaitFirstByte :=
  ⟨rfl, rfl, exists_of_after (f := fun t => t.state) (by decide), exists_of_after (f := fun t => t.state) (by decide)⟩

theorem witness_FirstByteBecomesThePrefix : (fresh 9#6 .boundedReset).state = .awaitFirstByte := rfl

theorem witness_ByteHitExtendsThePrefix :
    (chained 9#6 .boundedReset 512).state = .matching ∧
    ({ chained 9#6 .boundedReset 512 with pfx := [0#8] } : State).dict = chain 512 ∧
    memReadDict (chain 512) ([0#8] ++ [0#8]) = some 256#32 := by
  refine ⟨rfl, by simp only [chained, midRun], ?_⟩
  have h : chainKey 256 = [0#8] ++ [0#8] := by decide
  have hr : memReadDict (chain 512) (chainKey 256) = some (BitVec.ofNat 32 256) :=
    memReadDict_chain (n := 512) (by omega) (k := 256) (by omega)
  rw [h] at hr
  exact hr

/-- The last insertion below a full counter, under either policy. -/
theorem witness_ByteMissEmitsThenInserts : ∀ (pol : Policy) (n : Nat),
    (pol = .boundedReset ∧ n = 511) ∨ (pol = .growthOnly ∧ n = 2 ^ 32 - 1) →
    Inv (chained 9#6 pol n) ∧ (chained 9#6 pol n).state = .matching ∧
    memReadDict (chained 9#6 pol n).dict ((chained 9#6 pol n).pfx ++ [1#8]) = none ∧
    memReadDict (chained 9#6 pol n).dict (chained 9#6 pol n).pfx = some 1#32 ∧
    (pol = .boundedReset → (chained 9#6 pol n).lastAssignedCode.toNat + 1 < 2 ^ 9) ∧
    (pol = .growthOnly → (chained 9#6 pol n).lastAssignedCode.toNat + 1 < 2 ^ 32) := by
  intro pol n h
  have hn : 256 ≤ n ∧ n ≤ 2 ^ 32 := by omega
  have hc : (chained 9#6 pol n).lastAssignedCode.toNat = n - 1 := chained_counter (by omega) hn.2
  rw [hc]
  refine ⟨inv_chained (by decide) hn.1 hn.2 (fun hp => ?_), rfl, chained_miss n, chained_hit hn.1 hn.2, fun hp => ?_,
    fun hp => ?_⟩ <;> rcases h with ⟨h, rfl⟩ | ⟨h, rfl⟩
  · show 511 ≤ 2 ^ 9
    omega
  · rw [h] at hp
    exact absurd hp (by decide)
  · omega
  · rw [h] at hp
    exact absurd hp (by decide)
  · rw [h] at hp
    exact absurd hp (by decide)
  · omega

theorem witness_ByteMissAtFullCounterResets :
    Inv (chained 9#6 .boundedReset 512) ∧ (chained 9#6 .boundedReset 512).state = .matching ∧
    memReadDict (chain 512) ([1#8] ++ [1#8]) = none ∧ memReadDict (chain 512) [1#8] = some 1#32 ∧
    (chained 9#6 .boundedReset 512).policy = .boundedReset ∧
    2 ^ 9 ≤ (chained 9#6 .boundedReset 512).lastAssignedCode.toNat + 1 :=
  ⟨inv_chained (by decide) (by omega) (by omega) (fun _ => le_refl 512), rfl, chained_miss 512,
    chained_hit (by omega) (by omega), rfl, by decide⟩

theorem witness_ByteMissAtTheTopRaisesCapacity :
    Inv (chained 9#6 .growthOnly (2 ^ 32)) ∧ (chained 9#6 .growthOnly (2 ^ 32)).state = .matching ∧
    memReadDict (chain (2 ^ 32)) ([1#8] ++ [1#8]) = none ∧ memReadDict (chain (2 ^ 32)) [1#8] = some 1#32 ∧
    (chained 9#6 .growthOnly (2 ^ 32)).policy = .growthOnly ∧
    (chained 9#6 .growthOnly (2 ^ 32)).lastAssignedCode.toNat = 2 ^ 32 - 1 :=
  ⟨inv_chained (by decide) (by omega) (by omega) (fun h => absurd h (by decide)), rfl, chained_miss _,
    chained_hit (by omega) (by omega), rfl, chained_counter (by omega) (by omega)⟩

theorem witness_AbsentPrefixAtEmissionRaisesInternal :
    (midRun 9#6 .boundedReset [] 255#32 [0x61#8]).state = .matching ∧ memReadDict [] ([0x61#8] ++ [0x62#8]) = none ∧
    memReadDict [] [0x61#8] = none := by decide

theorem witness_EmittedPrefixIsTheLongestMatch :
    Inv (chained 9#6 .boundedReset 511) ∧ (chained 9#6 .boundedReset 511).state = .matching ∧
    memReadDict (chain 511) ([1#8] ++ [1#8]) = none ∧
    ∃ key : Key, key <+: [1#8] ++ 1#8 :: [2#8] ∧ memReadDict (chain 511) key ≠ none := by
  refine ⟨inv_chained (by decide) (by omega) (by omega) (fun _ => ?_), rfl, chained_miss 511, [1#8], ⟨_, rfl⟩, ?_⟩
  · show 511 ≤ 2 ^ 9
    omega
  · rw [chained_hit (by omega) (by omega)]
    exact Option.some_ne_none _

/-- The singletons alone, one byte matched: 95_test_vectors.md section 1, scenario B after its first byte. -/
def firstMatch (mw : BitVec 6) : State := midRun mw .boundedReset singletons 255#32 [0x61#8]

theorem inv_firstMatch {mw : BitVec 6} (hv : mwValid mw = true) : Inv (firstMatch mw) := by
  refine inv_midRun hv dictInv_singletons (fun _ => ?_) ?_
  · have := (two_pow_bounds hv).1
    show 255 ≤ 2 ^ mw.toNat - 1
    omega
  · rw [memReadDict_singletons]
    exact Option.some_ne_none _

theorem firstMatch_miss : memReadDict singletons ([0x61#8] ++ [0x62#8]) = none :=
  memReadDict_singletons_none (by decide)

set_option maxRecDepth 20000 in
theorem witness_NextLookupSeesTheLastWrite_insertion :
    Inv (firstMatch 12#6) ∧ (firstMatch 12#6).state = .matching ∧
    memReadDict (firstMatch 12#6).dict ((firstMatch 12#6).pfx ++ [0x62#8]) = none ∧
    ∃ t, exec (.byte 0x62#8) (firstMatch 12#6) = .next t ∧ (t.state, t.nResets) = (.matching, 0) :=
  ⟨inv_firstMatch (by decide), rfl, firstMatch_miss,
    exists_of_after (f := fun t => (t.state, t.nResets)) (by decide)⟩

/-- A miss answers a next state of the kind its counter says: what the driver does after the emission. -/
theorem chained_byte {mw : BitVec 6} {pol : Policy} {n : Nat} (hI : Inv (chained mw pol n)) (h256 : 256 ≤ n)
    (hn : n ≤ 2 ^ 32) : ∃ u, bpAppend 1 (width (countByte (chained mw pol n))) (countByte (chained mw pol n)) = .next u ∧
      exec (.byte 1#8) (chained mw pol n) = learnOrReset 1#8 u := by
  have hR := hI.2 rfl
  obtain ⟨u, hu⟩ := hR.emit rfl (chained_hit h256 hn)
  refine ⟨countByte u, bpAppend_countByte hu, ?_⟩
  show byteMatching 1#8 (chained mw pol n) = _
  have hmiss : hit 1#8 (chained mw pol n) = false := by
    show (memReadDict (chain n) ([1#8] ++ [1#8])).isSome = false
    rw [chained_miss]
    rfl
  unfold byteMatching
  rw [hmiss, if_neg Bool.false_ne_true]
  have hlook : dictLookup (countByte (chained mw pol n)).pfx (countByte (chained mw pol n)) = some 1#32 :=
    chained_hit h256 hn
  unfold emitPrefix
  rw [hlook]
  show andThen (bpAppend 1 (width (countByte (chained mw pol n))) (countByte (chained mw pol n))) _ = _
  rw [show bpAppend 1 (width (countByte (chained mw pol n))) (countByte (chained mw pol n)) = .next (countByte u) from
    bpAppend_countByte hu, andThen_next]

theorem witness_NextLookupSeesTheLastWrite_reset :
    Inv (chained 9#6 .boundedReset 512) ∧ (chained 9#6 .boundedReset 512).state = .matching ∧
    memReadDict (chain 512) ([1#8] ++ [1#8]) = none ∧
    ∃ t, exec (.byte 1#8) (chained 9#6 .boundedReset 512) = .next t ∧ t.state = .matching ∧ t.nResets ≠ 0 := by
  have hI : Inv (chained 9#6 .boundedReset 512) := inv_chained (by decide) (by omega) (by omega) (fun _ => le_refl 512)
  obtain ⟨u, hu, he⟩ := chained_byte hI (by omega) (by omega)
  have hdue : resetDue u = true := by
    rw [resetDue_iff, bpAppend_policy hu, bpAppend_maxWidth hu, bpAppend_lastAssignedCode hu]
    exact ⟨rfl, by decide⟩
  refine ⟨hI, rfl, chained_miss 512, setPrefix [1#8] (countedReset u), ?_, ?_, ?_⟩
  · rw [he, learnOrReset, if_pos hdue]
  · show u.state = .matching
    rw [bpAppend_state hu]
    rfl
  · show u.nResets + 1 ≠ 0
    omega

theorem witness_EosEmitsFlushesAndFinishes :
    (firstMatch 9#6).state = .matching ∧ Inv (firstMatch 9#6) ∧
    memReadDict (firstMatch 9#6).dict (firstMatch 9#6).pfx = some 97#32 ∧
    (midRun 9#6 .boundedReset [] 255#32 [0x61#8]).state = .matching ∧ memReadDict [] [0x61#8] = none :=
  ⟨rfl, inv_firstMatch (by decide), memReadDict_singletons 0x61#8, rfl, rfl⟩

theorem witness_EosOnEmptySourceRaisesInput :
    (fresh 12#6 .boundedReset).state = .awaitFirstByte ∧ Inv (fresh 12#6 .boundedReset) :=
  ⟨rfl, inv_fresh (by decide) _⟩

theorem witness_IoerrRaisesIoAndKeepsTheOutput :
    (fresh 12#6 .boundedReset).state = .awaitFirstByte ∧ (firstMatch 12#6).state = .matching := ⟨rfl, rfl⟩

theorem witness_ErrorsLeaveTheOutputOfEarlierCommands :
    (Inv State.reset ∧ State.reset.state ≠ .failed ∧
      ∃ t, exec (.start 33#6 .growthOnly) State.reset = .next t ∧ (t.state, t.err) = (.failed, .config)) ∧
    (Inv (fresh 12#6 .growthOnly) ∧ (fresh 12#6 .growthOnly).state ≠ .failed ∧
      (∃ t, exec .eos (fresh 12#6 .growthOnly) = .next t ∧ (t.state, t.err) = (.failed, .input)) ∧
      (∃ t, exec .ioerr (fresh 12#6 .growthOnly) = .next t ∧ (t.state, t.err) = (.failed, .io))) ∧
    (Inv finished ∧ finished.state ≠ .failed ∧
      ∃ t, exec (.byte 0#8) finished = .next t ∧ (t.state, t.err) = (.failed, .protocol)) :=
  ⟨⟨inv_reset, by decide, exists_of_after (f := fun t => (t.state, t.err)) (by decide)⟩,
    ⟨inv_fresh (by decide) _, by decide, exists_of_after (f := fun t => (t.state, t.err)) (by decide),
      exists_of_after (f := fun t => (t.state, t.err)) (by decide)⟩,
    ⟨inv_finished, by decide, exists_of_after (f := fun t => (t.state, t.err)) (by decide)⟩⟩

/-- A prefix that no entry holds, as a seed without a singleton can leave it (60_exceptions.md R186). -/
theorem witness_ErrorsLeaveTheOutputOfEarlierCommands_internal :
    (midRun 9#6 .boundedReset [] 255#32 [0x61#8]).state ≠ .failed ∧
    ∃ t, exec .eos (midRun 9#6 .boundedReset [] 255#32 [0x61#8]) = .next t ∧
      (t.state, t.err) = (.failed, .internal) :=
  ⟨by decide, exists_of_after (f := fun t => (t.state, t.err)) (by decide)⟩

theorem witness_ErrorsLeaveTheOutputOfEarlierCommands_capacity :
    Inv (chained 9#6 .growthOnly (2 ^ 32)) ∧
    ∃ t, exec (.byte 1#8) (chained 9#6 .growthOnly (2 ^ 32)) = .next t ∧ t.state = .failed ∧ t.err = .capacity := by
  have hI : Inv (chained 9#6 .growthOnly (2 ^ 32)) :=
    inv_chained (by decide) (by omega) (by omega) (fun h => absurd h (by decide))
  obtain ⟨u, hu, he⟩ := chained_byte hI (by omega) (by omega)
  have hpol : u.policy = .growthOnly := (bpAppend_policy hu).trans rfl
  have hlast : u.lastAssignedCode = (chained 9#6 .growthOnly (2 ^ 32)).lastAssignedCode :=
    (bpAppend_lastAssignedCode hu).trans rfl
  have hfull : capacityFull u = true := by
    rw [capacityFull_iff, hlast]
    exact ⟨hpol, chained_counter (by omega) (by omega)⟩
  refine ⟨hI, raise .capacity u, ?_, rfl, rfl⟩
  rw [he, learnOrReset, if_neg (by simp [resetDue, hpol]), if_pos hfull]

theorem witness_LookupAnswersTheExactMatch : Sound (fresh 9#6 .growthOnly) ∧
    DictInv (fresh 9#6 .growthOnly).dict (fresh 9#6 .growthOnly).lastAssignedCode ∧ [0xFF#8] = [(0xFF#8 : Byte)] :=
  ⟨sound_fresh _ _, dictInv_singletons, rfl⟩

/-- The least code and the greatest the counter holds. -/
theorem witness_InsertAddsTheEntry : ∀ last ∈ [0#32, 0xFFFFFFFE#32],
    [0x61#8] ≠ ([] : Key) ∧ memReadDict [] [0x61#8] = none ∧ last.toNat + 1 < 2 ^ 32 ∧
    ∀ e ∈ ([] : Dict), e.code.toNat ≠ last.toNat + 1 := by
  intro last h
  refine ⟨by decide, rfl, ?_, fun e he => absurd he List.not_mem_nil⟩
  simp only [List.mem_cons, List.not_mem_nil, or_false] at h
  rcases h with rfl | rfl <;> norm_num

theorem witness_InsertOutsideItsPreconditionsStops :
    [0x61#8] ≠ ([] : Key) ∧ memReadDict [⟨[0x61#8], 97#32⟩] [0x61#8] ≠ none ∧ 5 ≠ State.reset.lastAssignedCode.toNat + 1 ∧
    memReadDict [] [0x61#8] = none ∧ (0xFFFFFFFF#32 : Code).toNat = 2 ^ 32 - 1 ∧
    memReadDict [⟨[0x62#8], 1#32⟩] [0x61#8] = none ∧ 1 = State.reset.lastAssignedCode.toNat + 1 ∧
    ∃ e ∈ ([⟨[0x62#8], 1#32⟩] : Dict), e.code.toNat = 1 := by decide

theorem witness_EntriesLeaveOnlyByFullReset : exec .dictReset State.reset = .next (dictReset State.reset) ∧
    exec .cwWidth State.reset = .next (recordAnswer (.width 8) State.reset) := ⟨rfl, rfl⟩

theorem witness_BitLengthAndBitstrAreAsDefined : bitLength 255 = 8 ∧ bitLength 256 = 9 ∧ bitLength 511 = 9 ∧
    bitLength 512 = 10 ∧ bitLength 1 = 1 ∧ bitstr 9 97 = [false, false, true, true, false, false, false, false, true] := by
  decide

theorem witness_WidthFallsOnlyByReset : exec .cwWidth (fresh 9#6 .growthOnly) =
    .next (recordAnswer (.width 8) (fresh 9#6 .growthOnly)) ∧
    128 ≤ (recordAnswer (.width 8) (fresh 9#6 .growthOnly)).lastAssignedCode.toNat := ⟨rfl, by decide⟩

theorem witness_WidthStaysInTheConfiguredRange :
    Inv (chained 9#6 .boundedReset 512) ∧ inRun (chained 9#6 .boundedReset 512) = true ∧
    (chained 9#6 .boundedReset 512).policy = .boundedReset :=
  ⟨inv_chained (by decide) (by omega) (by omega) (fun _ => le_refl 512), rfl, rfl⟩

theorem witness_GrowthOnlyIgnoresMaxWidth : (fresh 9#6 .growthOnly).policy = .growthOnly ∧
    (∀ m pol, Instr.byte 0x61#8 ≠ .start m pol) ∧
    ∃ t, exec (.byte 0x61#8) (fresh 9#6 .growthOnly) = .next t ∧ t.state = .matching :=
  ⟨rfl, fun _ _ h => (by cases h), exists_of_after (f := fun t => t.state) (by decide)⟩

theorem witness_AppendPacksTheCode : ∀ w ∈ [8, 32], 8 ≤ w ∧ w ≤ 32 ∧ 2 ^ w - 1 < 2 ^ w ∧ State.reset.flushed = false := by
  decide

theorem witness_FlushPadsTheLastByte : ∀ acc ∈ [[], [true], List.replicate 7 true],
    ({ State.reset with acc := acc } : State).flushed = false ∧ acc.length ≤ 7 := by decide

theorem witness_PackerOutsideItsPreconditionsStops :
    (7 < 8 ∨ 32 < 7 ∨ 2 ^ 7 ≤ 1) ∧ (33 < 8 ∨ 32 < 33 ∨ 2 ^ 33 ≤ 1) ∧ (8 < 8 ∨ 32 < 8 ∨ 2 ^ 8 ≤ 256) ∧
    finished.flushed = true ∧ 255 < 2 ^ 8 ∧
    ({ State.reset with acc := List.replicate 8 true } : State).flushed = false ∧
    8 ≤ ({ State.reset with acc := List.replicate 8 true } : State).acc.length := by decide

theorem witness_AppendedBitsAreConserved : Inv (firstMatch 9#6) ∧ (firstMatch 9#6).state = .matching ∧ Inv finished ∧
    finished.state = .done := ⟨inv_firstMatch (by decide), rfl, inv_finished, rfl⟩

theorem witness_NumericAccumulatorEqualsBitSequence : ∀ n ∈ [1, 7],
    ({ State.reset with acc := List.replicate n true } : State).flushed = false ∧
    1 ≤ (List.replicate n true).length ∧ (List.replicate n true).length ≤ 7 := by decide

theorem witness_HardwareResetIdlesTheCore :
    ({ finished with inputs := [.hardReset] } : State).inputs = .hardReset :: [] := rfl

theorem witness_EveryStepKeepsTheStateSound : Sound State.reset ∧ step State.reset = .next State.reset :=
  ⟨inv_reset.1, rfl⟩

theorem witness_EnvironmentMovesKeepTheInvariant :
    Inv (setInputs [.startSeeded 9#6 .boundedReset singletons 255#32] finished) ∧
    (∀ x ∈ (setInputs [.startSeeded 9#6 .boundedReset singletons 255#32] finished).inputs.head?, EnvironmentMove x) := by
  refine ⟨inv_finished.setInputs _, fun x hx => ?_⟩
  obtain rfl := Option.some.inj hx
  exact ⟨dictInv_singletons, fun _ => by decide⟩

theorem witness_PortMovesKeepTheWidthSequence :
    Inv (setInputs [.request (encode .eos)] (firstMatch 9#6)) ∧
    WidthInv (setInputs [.request (encode .eos)] (firstMatch 9#6)) ∧
    (∀ x ∈ (setInputs [.request (encode .eos)] (firstMatch 9#6)).inputs.head?, PortMove x) := by
  refine ⟨(inv_firstMatch (by decide)).setInputs _, ⟨rfl, fun _ => rfl, fun h => ?_⟩, fun x hx => ?_⟩
  · simp [firstMatch, midRun] at h
  · obtain rfl := Option.some.inj hx
    trivial

theorem witness_EnvironmentMovesNeverStop : Inv (setInputs [.request (.word 0x061#10)] finished) ∧
    (∀ x ∈ (setInputs [.request (.word 0x061#10)] finished).inputs.head?, EnvironmentMove x) := by
  refine ⟨inv_finished.setInputs _, fun x hx => ?_⟩
  obtain rfl := Option.some.inj hx
  trivial

/-- The seed of a full counter at width 9. -/
theorem witness_SeededConstructionPlacesTheSeed :
    (finished.state = .idle ∨ finished.state = .done ∨ finished.state = .failed) ∧ dictWf (chain 512) = true ∧
    (∀ e ∈ chain 512, e.code.toNat ≤ (511#32 : Code).toNat) ∧ SeedWellFormed 9#6 .boundedReset (chain 512) 511#32 :=
  have hd : DictInv (chain 512) 511#32 := dictInv_chain (n := 512) (by omega) (by omega)
  ⟨by decide, hd.wf, fun _ he => hd.code_le he, hd, fun _ => by decide⟩

set_option maxRecDepth 20000 in
theorem witness_OutputGrowsByAFewBytes : Inv (firstMatch 12#6) ∧
    (∃ t, exec (.byte 0x62#8) (firstMatch 12#6) = .next t ∧ t.codes = [⟨97, 8⟩]) ∧
    ∃ t, exec .eos (firstMatch 12#6) = .next t ∧ t.codes = [⟨97, 8⟩] :=
  ⟨inv_firstMatch (by decide), exists_of_after (f := fun t => t.codes) (by decide),
    exists_of_after (f := fun t => t.codes) (by decide)⟩

theorem witness_StepTakesTheOldestMoveAlone : step State.reset = .next State.reset ∧
    ∃ t, step { finished with inputs := [.hardReset, .hardReset] } = .next t ∧ t.inputs = [.hardReset] :=
  ⟨rfl, exists_of_after (f := fun t => t.inputs) (by decide)⟩

theorem witness_OnlyTheOwnerWrites : exec .dictReset State.reset = .next (dictReset State.reset) := rfl

theorem witness_EncodingTerminatesWithTheWholeStream :
    (State.reset.state = .idle ∨ State.reset.state = .done ∨ State.reset.state = .failed) ∧ 9 ≤ (9#6 : BitVec 6).toNat ∧
    (32#6 : BitVec 6).toNat ≤ 32 ∧ [0x41#8] ≠ ([] : List Byte) ∧ [(0x41#8 : Byte)].length < 2 ^ 32 - 256 ∧
    (setInputs (commandInputs (encodeCommands 9#6 .growthOnly [0x41#8])) State.reset).inputs =
      commandInputs (encodeCommands 9#6 .growthOnly [0x41#8]) ++ [] := by decide

end Sys2Proof.Tests
end

section
/-! The scope family (00_scope.md R9, R11): `bit_length` and `bitstr`, a step and the queue of the environment's moves. -/

namespace Sys2Proof

/-- 00_scope.md R9's own form of `bit_length`, for `k` at least 1. -/
theorem bitLength_eq_iff {n k : Nat} (hk : 1 ≤ k) : bitLength n = k ↔ 2 ^ (k - 1) ≤ n ∧ n < 2 ^ k := by
  rw [← lt_bitLength_iff, ← bitLength_le_iff]
  omega

theorem getElem?_bitstr {w i : Nat} (v : Nat) (h : i < w) : (bitstr w v)[i]? = some (v.testBit (w - 1 - i)) := by
  have hi : i < (bitstr w v).length := by rwa [length_bitstr]
  rw [List.getElem?_eq_getElem hi, getElem_bitstr w v i hi]

/-- Settles O31: from the two order laws of `bit_length`, and bit by bit for `bitstr`. -/
theorem bitLengthAndBitstrAreAsDefined : Obligations.BitLengthAndBitstrAreAsDefined :=
  ⟨bitLength_zero, fun _ _ _ hk => bitLength_eq_iff hk,
    fun w v => ⟨length_bitstr w v, fun _ hi => getElem?_bitstr v hi⟩⟩

namespace Machine

/-- With a move waiting, a step takes the oldest one. -/
theorem step_of_inputs_cons {s : State} {x : Input} {later : List Input} (h : s.inputs = x :: later) :
    step s = takeInput x (setInputs later s) := by
  simp only [step, takeNext, h]

/-- A request that decodes is taken by executing its instruction (30_encoding.md R86). -/
theorem takeInput_request_of_decode {r : Request} {i : Instr} (h : decode r = .ok i) (s : State) :
    takeInput (.request r) s = exec i s := by
  simp only [takeInput, takeRequest, h]

/-! What each operation answers has the queue it was given: only `takeNext` writes the queue (log entry 6). -/

@[simp] theorem protocolError_inputs (s : State) : (protocolError s).inputs = s.inputs := by
  by_cases hs : s.state = .failed
  · rw [protocolError_failed s hs]
  · rw [protocolError_live s hs, raise_inputs]

theorem dictInsert_inputs {key : Key} {code : Nat} {s t : State} (h : dictInsert key code s = .next t) :
    t.inputs = s.inputs := by
  obtain ⟨-, -, -, -, -, rfl⟩ := (dictInsert_eq_next_iff key code s t).1 h
  exact learn_inputs _ _ _

theorem learnOrReset_inputs {c : Byte} {s t : State} (h : learnOrReset c s = .next t) : t.inputs = s.inputs := by
  obtain ⟨-, rfl⟩ | ⟨-, -, rfl⟩ | ⟨-, -, u, hu, rfl⟩ := learnOrReset_cases h
  · simp
  · simp
  · rw [setPrefix_inputs, dictInsert_inputs hu]

theorem execByte_inputs {c : Byte} {s t : State} (h : execByte c s = .next t) : t.inputs = s.inputs := by
  obtain ⟨-, rfl⟩ | ⟨-, rfl⟩ | ⟨-, -, rfl⟩ | ⟨-, -, hmiss⟩ | ⟨-, rfl⟩ := execByte_cases h
  · simp
  · simp
  · simp
  · obtain ⟨-, rfl⟩ | ⟨p, u, -, hu, ht⟩ := emitPrefix_cases hmiss
    · simp
    · rw [learnOrReset_inputs ht, bpAppend_inputs hu, countByte_inputs]
  · rfl

theorem execEos_inputs {s t : State} (h : execEos s = .next t) : t.inputs = s.inputs := by
  obtain ⟨-, rfl⟩ | ⟨-, rfl⟩ | ⟨-, -, rfl⟩ | ⟨-, p, u, v, -, hu, hv, rfl⟩ | ⟨-, rfl⟩ := execEos_cases h
  · simp
  · simp
  · simp
  · rw [finishRun_inputs, bpFlush_inputs hv, bpAppend_inputs hu]
  · rfl

theorem execStart_inputs {mw : BitVec 6} {pol : Policy} {s t : State} (h : execStart mw pol s = .next t) :
    t.inputs = s.inputs := by
  obtain ⟨-, -, rfl⟩ | ⟨-, -, rfl⟩ | ⟨-, -, rfl⟩ := execStart_cases h <;> simp

theorem execIoerr_inputs {s t : State} (h : execIoerr s = .next t) : t.inputs = s.inputs := by
  obtain ⟨-, rfl⟩ | ⟨-, rfl⟩ | ⟨-, rfl⟩ := execIoerr_cases h <;> simp

/-- No instruction touches the queue. -/
theorem exec_inputs {i : Instr} {s t : State} (h : exec i s = .next t) : t.inputs = s.inputs := by
  cases i with
  | byte c => exact execByte_inputs h
  | eos => exact execEos_inputs h
  | start mw pol => exact execStart_inputs h
  | ioerr => exact execIoerr_inputs h
  | dictLookup key =>
    obtain rfl := Host.Outcome.next.inj h
    exact recordAnswer_inputs _ s
  | dictInsert key code => exact dictInsert_inputs h
  | dictReset =>
    obtain rfl := Host.Outcome.next.inj h
    exact dictReset_inputs s
  | cwWidth =>
    obtain rfl := Host.Outcome.next.inj h
    exact recordAnswer_inputs _ s
  | cwResetDue =>
    obtain rfl := Host.Outcome.next.inj h
    exact recordAnswer_inputs _ s
  | bpAppend code width => exact bpAppend_inputs h
  | bpFlush => exact bpFlush_inputs h

theorem takeRequest_inputs {r : Request} {s t : State} (h : takeRequest r s = .next t) : t.inputs = s.inputs := by
  unfold takeRequest at h
  split at h
  · exact exec_inputs h
  · rw [rejectRequest_cases h, protocolError_inputs]

theorem startSeeded_inputs {mw : BitVec 6} {pol : Policy} {d : Dict} {last : Code} {s t : State}
    (h : startSeeded mw pol d last s = .next t) : t.inputs = s.inputs := by
  obtain ⟨-, -, rfl⟩ | ⟨-, -, rfl⟩ | ⟨-, -, -, -, rfl⟩ := startSeeded_cases h <;> simp

/-- No move of the environment touches the moves behind it, a hardware reset included (log entry 20). -/
theorem takeInput_inputs {x : Input} {s t : State} (h : takeInput x s = .next t) : t.inputs = s.inputs := by
  cases x with
  | request r => exact takeRequest_inputs h
  | hardReset =>
    obtain rfl := Host.Outcome.next.inj h
    exact hardReset_inputs s
  | startSeeded mw pol d last => exact startSeeded_inputs h

/-- Settles O52: a waiting step leaves the empty queue, and any other takes the oldest move, which keeps the rest. -/
theorem stepTakesTheOldestMoveAlone : Obligations.StepTakesTheOldestMoveAlone := by
  intro s t h
  obtain ⟨hi, rfl⟩ | ⟨x, later, hi, ht⟩ := step_cases h
  · rw [hi, List.tail_nil]
  · rw [takeInput_inputs ht, setInputs_inputs, hi, List.tail_cons]

/-- Settles O5: the oldest move is the request, and a request that decodes is executed. -/
theorem stepExecutesTheDecodedInstruction : Obligations.StepExecutesTheDecodedInstruction := by
  intro s r later i hin hdec
  rw [step_of_inputs_cons hin, takeInput_request_of_decode hdec]
  rfl

end Machine
end Sys2Proof
end

section
/-! The state family (10_state.md R20 to R26, R34): the state stays sound whatever move is taken, the environment's moves
keep the invariants of a run, and every piece of state is written by its owner alone. -/

namespace Sys2Proof.Machine

/-! Soundness after each operation that answers a next state. -/

theorem recordAnswer_sound {s : State} (hs : Sound s) (a : Answer) : Sound (recordAnswer a s) :=
  hs.congr rfl rfl rfl rfl rfl

theorem countByte_sound {s : State} (hs : Sound s) : Sound (countByte s) := hs.congr rfl rfl rfl rfl rfl

theorem setInputs_sound {s : State} (hs : Sound s) (later : List Input) : Sound (setInputs later s) :=
  hs.congr rfl rfl rfl rfl rfl

theorem countedReset_sound {s : State} (hs : Sound s) : Sound (countedReset s) :=
  hs.dictReset.congr rfl rfl rfl rfl rfl

/-- The first byte of a run enters `MATCHING` with a one-byte key held (43_driver.md R143). -/
theorem byteFirst_sound {s : State} (hs : Sound s) (hlive : s.state ≠ .failed) (c : Byte) : Sound (byteFirst c s) where
  dictWf := hs.dictWf
  accShort := hs.accShort
  prefixNonempty := by simp
  errNone := by simp [hs.errNone.2 hlive]

theorem learnOrReset_sound {c : Byte} {s t : State} (hs : Sound s) (h : learnOrReset c s = .next t) : Sound t := by
  obtain ⟨-, rfl⟩ | ⟨-, -, rfl⟩ | ⟨-, -, u, hu, rfl⟩ := learnOrReset_cases h
  · exact (countedReset_sound hs).setPrefix (by simp)
  · exact hs.raise (by simp)
  · exact (hs.dictInsert hu).setPrefix (by simp)

theorem execByte_sound {c : Byte} {s t : State} (hs : Sound s) (h : execByte c s = .next t) : Sound t := by
  obtain ⟨-, rfl⟩ | ⟨hst, rfl⟩ | ⟨-, -, rfl⟩ | ⟨-, -, hmiss⟩ | ⟨-, rfl⟩ := execByte_cases h
  · exact hs.raise (by simp)
  · exact byteFirst_sound hs (by simp [hst]) c
  · exact (countByte_sound hs).setPrefix (by simp [candidate])
  · obtain ⟨-, rfl⟩ | ⟨p, u, -, hu, ht⟩ := emitPrefix_cases hmiss
    · exact (countByte_sound hs).raise (by simp)
    · exact learnOrReset_sound ((countByte_sound hs).bpAppend hu) ht
  · exact hs

theorem execEos_sound {s t : State} (hs : Sound s) (h : execEos s = .next t) : Sound t := by
  obtain ⟨-, rfl⟩ | ⟨-, rfl⟩ | ⟨-, -, rfl⟩ | ⟨hst, p, u, v, -, hu, hv, rfl⟩ | ⟨-, rfl⟩ := execEos_cases h
  · exact hs.raise (by simp)
  · exact hs.raise (by simp)
  · exact hs.raise (by simp)
  · exact ((hs.bpAppend hu).bpFlush hv).finishRun (by simp [bpFlush_state hv, bpAppend_state hu, hst])
  · exact hs

theorem execStart_sound {mw : BitVec 6} {pol : Policy} {s t : State} (hs : Sound s) (h : execStart mw pol s = .next t) :
    Sound t := by
  obtain ⟨-, -, rfl⟩ | ⟨-, -, rfl⟩ | ⟨-, -, rfl⟩ := execStart_cases h
  · exact hs.raise (by simp)
  · exact sound_enterRun dictWf_singletons _ mw pol s
  · exact hs.raiseConfig mw pol

theorem execIoerr_sound {s t : State} (hs : Sound s) (h : execIoerr s = .next t) : Sound t := by
  obtain ⟨-, rfl⟩ | ⟨-, rfl⟩ | ⟨-, rfl⟩ := execIoerr_cases h
  · exact hs.raise (by simp)
  · exact hs.raise (by simp)
  · exact hs

/-- Every instruction, a component call among them, keeps the state sound. -/
theorem exec_sound {i : Instr} {s t : State} (hs : Sound s) (h : exec i s = .next t) : Sound t := by
  cases i with
  | byte c => exact execByte_sound hs h
  | eos => exact execEos_sound hs h
  | start mw pol => exact execStart_sound hs h
  | ioerr => exact execIoerr_sound hs h
  | dictLookup key =>
    obtain rfl := Host.Outcome.next.inj h
    exact recordAnswer_sound hs _
  | dictInsert key code => exact hs.dictInsert h
  | dictReset =>
    obtain rfl := Host.Outcome.next.inj h
    exact hs.dictReset
  | cwWidth =>
    obtain rfl := Host.Outcome.next.inj h
    exact recordAnswer_sound hs _
  | cwResetDue =>
    obtain rfl := Host.Outcome.next.inj h
    exact recordAnswer_sound hs _
  | bpAppend code width => exact hs.bpAppend h
  | bpFlush => exact hs.bpFlush h

theorem takeRequest_sound {r : Request} {s t : State} (hs : Sound s) (h : takeRequest r s = .next t) : Sound t := by
  unfold takeRequest at h
  split at h
  · exact exec_sound hs h
  · rw [rejectRequest_cases h]
    exact hs.protocolError

/-- A seed to which a meaning is given is a dictionary in canonical form (60_exceptions.md R186). -/
theorem dictWf_of_seedUsable {d : Dict} {last : Code} (h : seedUsable d last = true) : dictWf d = true :=
  (Bool.and_eq_true_iff.1 h).1

theorem startSeeded_sound {mw : BitVec 6} {pol : Policy} {d : Dict} {last : Code} {s t : State} (hs : Sound s)
    (h : startSeeded mw pol d last s = .next t) : Sound t := by
  obtain ⟨-, -, rfl⟩ | ⟨-, -, rfl⟩ | ⟨-, -, hu, -, rfl⟩ := startSeeded_cases h
  · exact hs.raise (by simp)
  · exact hs.raiseConfig mw pol
  · exact sound_enterRun (dictWf_of_seedUsable hu) last mw pol s

theorem takeInput_sound {x : Input} {s t : State} (hs : Sound s) (h : takeInput x s = .next t) : Sound t := by
  cases x with
  | request r => exact takeRequest_sound hs h
  | hardReset =>
    obtain rfl := Host.Outcome.next.inj h
    exact sound_hardReset s
  | startSeeded mw pol d last => exact startSeeded_sound hs h

/-- Settles O44: a waiting step changes nothing, and every move keeps the state sound. -/
theorem everyStepKeepsTheStateSound : Obligations.EveryStepKeepsTheStateSound := by
  intro s t hs h
  obtain ⟨-, rfl⟩ | ⟨x, later, -, ht⟩ := step_cases h
  · exact hs
  · exact takeInput_sound (setInputs_sound hs later) ht

/-! Which states are in a run, and the invariant of a run after each driver operation. -/

theorem inRun_of_awaitFirstByte {s : State} (h : s.state = .awaitFirstByte) : inRun s = true := by simp [inRun, h]

theorem inRun_of_matching {s : State} (h : s.state = .matching) : inRun s = true := by simp [inRun, h]

/-- Error entry from a sound state leaves the invariant: no run is under way in `FAILED`. -/
theorem raise_inv {s : State} (hs : Sound s) {k : ErrKind} (hk : k ≠ .none) : Inv (raise k s) :=
  inv_of_failed (hs.raise hk) (raise_state k s)

theorem raiseConfig_inv {s : State} (hs : Sound s) (mw : BitVec 6) (pol : Policy) :
    Inv (raiseConfig (openRun mw pol s)) :=
  inv_of_failed (hs.raiseConfig mw pol) (raiseConfig_state _)

theorem protocolError_inv {s : State} (h : Inv s) : Inv (protocolError s) := by
  by_cases hs : s.state = .failed
  · rwa [protocolError_failed s hs]
  · rw [protocolError_live s hs]
    exact raise_inv h.1 (by simp)

theorem hardReset_inv (s : State) : Inv (hardReset s) := ⟨sound_hardReset s, by simp [inRun]⟩

theorem countByte_runInv {s : State} (h : RunInv s) : RunInv (countByte s) :=
  h.congr rfl rfl rfl rfl rfl rfl rfl rfl rfl rfl

/-- The first byte is a key, as every one-byte key is (10_state.md R34 D4, P1). -/
theorem byteFirst_runInv {s : State} (h : RunInv s) (hst : s.state = .awaitFirstByte) (c : Byte) :
    RunInv (byteFirst c s) where
  dict := h.dict
  lastLow := h.lastLow
  lastHigh := h.lastHigh
  cfgValid := h.cfgValid
  matched := by simp [h.dict.singles c]
  accDone := by simp
  bitsOpen := by simpa using h.bitsOpen (by simp [hst])
  bitsDone := by simp
  emissions := h.emissions
  fresh := by simp
  emitted := by simp
  closed := by simpa [hst] using h.closed

/-- The matched key may become any key of the dictionary (10_state.md R34 P1). -/
theorem setPrefix_runInv {s : State} (h : RunInv s) {key : Key} (hk : memReadDict s.dict key ≠ none) :
    RunInv (setPrefix key s) :=
  { h with matched := fun _ => hk }

/-- The end of the miss arm (43_driver.md R145): the dictionary has been written, whatever the reset count now is, and the
match restarts from the unmatched byte. -/
theorem restart_runInv {s : State} (h : RunInv s) {d : Dict} {last : Code} (hd : DictInv d last)
    (hb : s.policy = .boundedReset → last.toNat ≤ 2 ^ s.maxWidth.toNat - 1) (resets : Nat) (c : Byte) :
    RunInv { s with dict := d, lastAssignedCode := last, nResets := resets, pfx := [c] } :=
  { h with
    dict := hd
    lastLow := hd.last_ge
    lastHigh := hb
    matched := fun _ => by simp [hd.singles c] }

/-- The singletons' counter is within every valid `max_width` (10_state.md R34 D4). -/
theorem singletons_last_le {mw : BitVec 6} (hv : mwValid mw = true) : (255#32).toNat ≤ 2 ^ mw.toNat - 1 := by
  have := (two_pow_bounds hv).1
  simp only [BitVec.toNat_ofNat]
  omega

/-- Where no reset is due the next code still fits `max_width` (41_code_width.md R116). -/
theorem nextCode_le_of_not_resetDue {s : State} (hd : resetDue s = false) (hpol : s.policy = .boundedReset) :
    nextCode s ≤ 2 ^ s.maxWidth.toNat - 1 := by
  have : ¬ 2 ^ s.maxWidth.toNat ≤ s.lastAssignedCode.toNat + 1 := fun hle =>
    absurd ((resetDue_iff s).2 ⟨hpol, hle⟩) (by simp [hd])
  unfold nextCode
  omega

theorem learnOrReset_inv {c : Byte} {s t : State} (h : Inv s) (hst : s.state = .matching)
    (ht : learnOrReset c s = .next t) : Inv t := by
  refine ⟨learnOrReset_sound h.1 ht, fun hrun => ?_⟩
  have hr : RunInv s := h.2 (inRun_of_matching hst)
  obtain ⟨-, rfl⟩ | ⟨-, -, rfl⟩ | ⟨hnd, -, u, hu, rfl⟩ := learnOrReset_cases ht
  · exact restart_runInv hr dictInv_singletons (fun _ => singletons_last_le hr.cfgValid) (s.nResets + 1) c
  · simp [inRun] at hrun
  · obtain ⟨-, habs, -, hlt, -, rfl⟩ := (dictInsert_eq_next_iff _ _ _ _).1 hu
    have hnext : (BitVec.ofNat 32 (nextCode s)).toNat = nextCode s := by rw [BitVec.toNat_ofNat, Nat.mod_eq_of_lt hlt]
    exact restart_runInv hr (hr.dict.insert (hr.matched hst) habs hlt)
      (fun hpol => hnext.trans_le (nextCode_le_of_not_resetDue hnd hpol)) s.nResets c

theorem execByte_inv {c : Byte} {s t : State} (h : Inv s) (ht : execByte c s = .next t) : Inv t := by
  obtain ⟨-, rfl⟩ | ⟨hst, rfl⟩ | ⟨hst, hhit, rfl⟩ | ⟨hst, -, hmiss⟩ | ⟨-, rfl⟩ := execByte_cases ht
  · exact raise_inv h.1 (by simp)
  · exact ⟨execByte_sound h.1 ht, fun _ => byteFirst_runInv (h.2 (inRun_of_awaitFirstByte hst)) hst c⟩
  · have hr : RunInv (countByte s) := countByte_runInv (h.2 (inRun_of_matching hst))
    exact ⟨execByte_sound h.1 ht, fun _ => setPrefix_runInv hr (Option.isSome_iff_ne_none.1 hhit)⟩
  · have hr : RunInv (countByte s) := countByte_runInv (h.2 (inRun_of_matching hst))
    obtain ⟨-, rfl⟩ | ⟨p, u, -, hu, hgo⟩ := emitPrefix_cases hmiss
    · exact raise_inv (countByte_sound h.1) (by simp)
    · exact learnOrReset_inv ⟨(countByte_sound h.1).bpAppend hu, fun _ => hr.bpAppend hst hu⟩
        ((bpAppend_state hu).trans hst) hgo
  · exact h

/-- The padding depends on the bit count modulo 8 (30_encoding.md R75). -/
theorem padBits_congr {m n : Nat} (h : m % 8 = n % 8) : padBits m = padBits n := by rw [padBits, padBits, h]

/-- Flush and finish turn the open stream into that of `DONE` (30_encoding.md R75): `out` holds whole bytes, so the bits
still held alone decide the padding. -/
theorem finishRun_runInv {s t : State} (h : RunInv s) (hst : s.state = .matching) (hcodes : s.codes ≠ [])
    (ht : bpFlush s = .next t) : RunInv (finishRun t) := by
  obtain ⟨-, -, hout, -, -, hframe⟩ := bpFlush_spec ht
  have hbits : sinkBits s.out ++ s.acc = codeBits s.codes := h.bitsOpen (by simp [hst])
  have hpad : padBits s.acc.length = padBits (codeBits s.codes).length := by
    refine padBits_congr ?_
    rw [← hbits, List.length_append, length_sinkBits]
    omega
  rw [hbits, hpad] at hout
  rw [hframe]
  exact { h with
    matched := by simp
    accDone := by simp
    bitsOpen := by simp
    bitsDone := fun _ => hout
    fresh := by simp
    emitted := fun _ => hcodes
    closed := by simp }

theorem execEos_inv {s t : State} (h : Inv s) (ht : execEos s = .next t) : Inv t := by
  obtain ⟨-, rfl⟩ | ⟨-, rfl⟩ | ⟨-, -, rfl⟩ | ⟨hst, p, u, v, -, hu, hv, rfl⟩ | ⟨-, rfl⟩ := execEos_cases ht
  · exact raise_inv h.1 (by simp)
  · exact raise_inv h.1 (by simp)
  · exact raise_inv h.1 (by simp)
  · obtain ⟨-, -, ⟨-, -, hcodes⟩, -⟩ := bpAppend_spec hu
    have hr : RunInv u := (h.2 (inRun_of_matching hst)).bpAppend hst hu
    exact ⟨execEos_sound h.1 ht,
      fun _ => finishRun_runInv hr ((bpAppend_state hu).trans hst) (by simp [hcodes]) hv⟩
  · exact h

theorem execStart_inv {mw : BitVec 6} {pol : Policy} {s t : State} (h : Inv s) (ht : execStart mw pol s = .next t) :
    Inv t := by
  obtain ⟨-, -, rfl⟩ | ⟨-, hv, rfl⟩ | ⟨-, -, rfl⟩ := execStart_cases ht
  · exact raise_inv h.1 (by simp)
  · exact ⟨execStart_sound h.1 ht,
      fun _ => runInv_enterRun dictInv_singletons hv (fun _ => singletons_last_le hv) s⟩
  · exact raiseConfig_inv h.1 mw pol

theorem execIoerr_inv {s t : State} (h : Inv s) (ht : execIoerr s = .next t) : Inv t := by
  obtain ⟨-, rfl⟩ | ⟨-, rfl⟩ | ⟨-, rfl⟩ := execIoerr_cases ht
  · exact raise_inv h.1 (by simp)
  · exact raise_inv h.1 (by simp)
  · exact h

/-- A command word spells one of the four commands, never a component call (30_encoding.md R86). -/
theorem decodeCommand_cases {cmd : BitVec 10} {i : Instr} (h : decodeCommand cmd = .ok i) :
    (∃ c, i = .byte c) ∨ i = .eos ∨ (∃ mw pol, i = .start mw pol) ∨ i = .ioerr := by
  unfold decodeCommand at h
  split_ifs at h
  · exact .inl ⟨_, (Except.ok.inj h).symm⟩
  · exact .inr (.inl (Except.ok.inj h).symm)
  · exact .inr (.inr (.inl ⟨_, _, (Except.ok.inj h).symm⟩))
  · exact .inr (.inr (.inr (Except.ok.inj h).symm))

theorem takeRequest_word_inv {cmd : BitVec 10} {s t : State} (h : Inv s) (ht : takeRequest (.word cmd) s = .next t) :
    Inv t := by
  unfold takeRequest at ht
  split at ht
  · next i hdec =>
    obtain ⟨c, rfl⟩ | rfl | ⟨mw, pol, rfl⟩ | rfl := decodeCommand_cases hdec
    · exact execByte_inv h ht
    · exact execEos_inv h ht
    · exact execStart_inv h ht
    · exact execIoerr_inv h ht
  · rw [rejectRequest_cases ht]
    exact protocolError_inv h

/-- A well-formed seed begins a run in the invariant (60_exceptions.md R186). -/
theorem startSeeded_inv {mw : BitVec 6} {pol : Policy} {d : Dict} {last : Code} {s t : State} (h : Inv s)
    (hseed : SeedWellFormed mw pol d last) (ht : startSeeded mw pol d last s = .next t) : Inv t := by
  obtain ⟨-, -, rfl⟩ | ⟨-, -, rfl⟩ | ⟨-, hv, -, -, rfl⟩ := startSeeded_cases ht
  · exact raise_inv h.1 (by simp)
  · exact raiseConfig_inv h.1 mw pol
  · obtain ⟨hd, hb⟩ := hseed
    exact ⟨startSeeded_sound h.1 ht, fun _ => runInv_enterRun hd hv hb s⟩

theorem takeInput_inv {x : Input} {s t : State} (h : Inv s) (hx : EnvironmentMove x) (ht : takeInput x s = .next t) :
    Inv t := by
  cases x with
  | request r =>
    cases r with
    | word cmd => exact takeRequest_word_inv h ht
    | call uop operands => exact hx.elim
  | hardReset =>
    obtain rfl := Host.Outcome.next.inj ht
    exact hardReset_inv s
  | startSeeded mw pol d last => exact startSeeded_inv h hx ht

/-- Settles O45: a waiting step changes nothing, and each move the environment may make keeps the invariant. -/
theorem environmentMovesKeepTheInvariant : Obligations.EnvironmentMovesKeepTheInvariant := by
  intro s t h hmove ht
  obtain ⟨-, rfl⟩ | ⟨x, later, hi, hx⟩ := step_cases ht
  · exact h
  · exact takeInput_inv (h.setInputs later) (hmove x (by simp [hi])) hx

/-- Settles O43: the reset state is sound, and no run is under way in `IDLE`. -/
theorem invariantHoldsAtReset : Obligations.InvariantHoldsAtReset :=
  ⟨⟨rfl, by simp [State.reset], by simp [State.reset], by simp [State.reset]⟩, by simp [State.reset, inRun]⟩

/-! What each instruction leaves of `cfg` (10_state.md R21, R22) and of the dictionary with its counter (10_state.md R26,
R27). -/

theorem dictInsert_cfg {key : Key} {code : Nat} {s t : State} (h : dictInsert key code s = .next t) :
    t.maxWidth = s.maxWidth ∧ t.policy = s.policy := by
  obtain ⟨-, -, -, -, -, rfl⟩ := (dictInsert_eq_next_iff key code s t).1 h
  exact ⟨rfl, rfl⟩

theorem learnOrReset_cfg {c : Byte} {s t : State} (h : learnOrReset c s = .next t) :
    t.maxWidth = s.maxWidth ∧ t.policy = s.policy := by
  obtain ⟨-, rfl⟩ | ⟨-, -, rfl⟩ | ⟨-, -, u, hu, rfl⟩ := learnOrReset_cases h
  · exact ⟨rfl, rfl⟩
  · exact ⟨rfl, rfl⟩
  · simpa using dictInsert_cfg hu

theorem execByte_cfg {c : Byte} {s t : State} (h : execByte c s = .next t) :
    t.maxWidth = s.maxWidth ∧ t.policy = s.policy := by
  obtain ⟨-, rfl⟩ | ⟨-, rfl⟩ | ⟨-, -, rfl⟩ | ⟨-, -, hmiss⟩ | ⟨-, rfl⟩ := execByte_cases h
  · exact ⟨rfl, rfl⟩
  · exact ⟨rfl, rfl⟩
  · exact ⟨rfl, rfl⟩
  · obtain ⟨-, rfl⟩ | ⟨p, u, -, hu, hgo⟩ := emitPrefix_cases hmiss
    · exact ⟨rfl, rfl⟩
    · obtain ⟨hmw, hpol⟩ := learnOrReset_cfg hgo
      rw [hmw, hpol, bpAppend_maxWidth hu, bpAppend_policy hu]
      exact ⟨rfl, rfl⟩
  · exact ⟨rfl, rfl⟩

theorem execEos_cfg {s t : State} (h : execEos s = .next t) : t.maxWidth = s.maxWidth ∧ t.policy = s.policy := by
  obtain ⟨-, rfl⟩ | ⟨-, rfl⟩ | ⟨-, -, rfl⟩ | ⟨-, p, u, v, -, hu, hv, rfl⟩ | ⟨-, rfl⟩ := execEos_cases h
  · exact ⟨rfl, rfl⟩
  · exact ⟨rfl, rfl⟩
  · exact ⟨rfl, rfl⟩
  · exact ⟨(bpFlush_maxWidth hv).trans (bpAppend_maxWidth hu), (bpFlush_policy hv).trans (bpAppend_policy hu)⟩
  · exact ⟨rfl, rfl⟩

/-- The end of a run does not touch the dictionary (43_driver.md R146). -/
theorem execEos_dict {s t : State} (h : execEos s = .next t) :
    t.dict = s.dict ∧ t.lastAssignedCode = s.lastAssignedCode := by
  obtain ⟨-, rfl⟩ | ⟨-, rfl⟩ | ⟨-, -, rfl⟩ | ⟨-, p, u, v, -, hu, hv, rfl⟩ | ⟨-, rfl⟩ := execEos_cases h
  · exact ⟨rfl, rfl⟩
  · exact ⟨rfl, rfl⟩
  · exact ⟨rfl, rfl⟩
  · exact ⟨(bpFlush_dict hv).trans (bpAppend_dict hu),
      (bpFlush_lastAssignedCode hv).trans (bpAppend_lastAssignedCode hu)⟩
  · exact ⟨rfl, rfl⟩

/-- `START` where no run may begin leaves `cfg`; elsewhere, rejected or not, it writes both fields (43_driver.md R142). -/
theorem execStart_cfg {mw : BitVec 6} {pol : Policy} {s t : State} (h : execStart mw pol s = .next t) :
    (t.maxWidth = s.maxWidth ∧ t.policy = s.policy) ∨ (t.maxWidth = mw ∧ t.policy = pol) := by
  obtain ⟨-, -, rfl⟩ | ⟨-, -, rfl⟩ | ⟨-, -, rfl⟩ := execStart_cases h
  · exact .inl ⟨rfl, rfl⟩
  · exact .inr ⟨rfl, rfl⟩
  · exact .inr ⟨rfl, rfl⟩

theorem execIoerr_cfg {s t : State} (h : execIoerr s = .next t) : t.maxWidth = s.maxWidth ∧ t.policy = s.policy := by
  obtain ⟨-, rfl⟩ | ⟨-, rfl⟩ | ⟨-, rfl⟩ := execIoerr_cases h <;> exact ⟨rfl, rfl⟩

theorem execIoerr_dict {s t : State} (h : execIoerr s = .next t) :
    t.dict = s.dict ∧ t.lastAssignedCode = s.lastAssignedCode := by
  obtain ⟨-, rfl⟩ | ⟨-, rfl⟩ | ⟨-, rfl⟩ := execIoerr_cases h <;> exact ⟨rfl, rfl⟩

/-- Settles O50: per instruction, the pieces it owns are excused by its name and every other one is shown unchanged. -/
theorem onlyTheOwnerWrites : Obligations.OnlyTheOwnerWrites := by
  intro i s t h
  have hq : t.inputs = s.inputs := exec_inputs h
  cases i with
  | byte c => simp [execByte_cfg h, hq]
  | eos => simp [execEos_cfg h, execEos_dict h, hq]
  | start mw pol =>
    exact ⟨(execStart_cfg h).imp_right fun hcfg => ⟨mw, pol, rfl, hcfg⟩, by simp, by simp, by simp, hq⟩
  | ioerr => simp [execIoerr_cfg h, execIoerr_dict h, hq]
  | dictLookup key =>
    obtain rfl := Host.Outcome.next.inj h
    simp
  | dictInsert key code =>
    obtain ⟨-, -, -, -, -, rfl⟩ := (dictInsert_eq_next_iff key code s t).1 h
    simp
  | dictReset =>
    obtain rfl := Host.Outcome.next.inj h
    simp
  | cwWidth =>
    obtain rfl := Host.Outcome.next.inj h
    simp
  | cwResetDue =>
    obtain rfl := Host.Outcome.next.inj h
    simp
  | bpAppend code width =>
    simp [bpAppend_maxWidth h, bpAppend_policy h, bpAppend_dict h, bpAppend_lastAssignedCode h, bpAppend_state h,
      bpAppend_err h, bpAppend_pfx h, hq]
  | bpFlush =>
    simp [bpFlush_maxWidth h, bpFlush_policy h, bpFlush_dict h, bpFlush_lastAssignedCode h, bpFlush_state h,
      bpFlush_err h, bpFlush_pfx h, hq]

end Sys2Proof.Machine
end

section
/-! The memory family (20_memory.md R52, R58, R65): a lookup sees what the last `BYTE` wrote to the dictionary, and the
sink only grows, by the whole bytes of what a command emits. -/

namespace Sys2Proof.Machine

/-! What a miss writes to the dictionary store. -/

theorem exec_dictLookup (key : Key) (s : State) :
    exec (.dictLookup key) s = .next { s with answer := .code (memReadDict s.dict key) } := rfl

/-- A miss arm that stays in the run writes the store in one of two ways, told apart by the ghost `n_resets`. -/
theorem learnOrReset_writes {c : Byte} {s t : State} (h : learnOrReset c s = .next t) (hlive : t.state ≠ .failed) :
    (t.nResets = s.nResets + 1 ∧ t.dict = singletons) ∨
    (t.nResets = s.nResets ∧ memReadDict t.dict (candidate c s) = some t.lastAssignedCode) := by
  obtain ⟨-, rfl⟩ | ⟨-, -, rfl⟩ | ⟨-, -, u, hu, rfl⟩ := learnOrReset_cases h
  · exact .inl ⟨rfl, rfl⟩
  · exact absurd (raise_state _ _) hlive
  · obtain ⟨-, habs, -, -, -, rfl⟩ := (dictInsert_eq_next_iff _ _ _ _).1 hu
    exact .inr ⟨rfl, memReadDict_memWriteDict_self _ habs⟩

/-- A missing `BYTE` that stays in the run: the emission before the write leaves the store, the matched key and the reset
count alone. -/
theorem execByte_miss_writes {c : Byte} {s t : State} (hst : s.state = .matching)
    (hmiss : memReadDict s.dict (candidate c s) = none) (h : execByte c s = .next t) (hlive : t.state ≠ .failed) :
    (t.nResets = s.nResets + 1 ∧ t.dict = singletons) ∨
    (t.nResets = s.nResets ∧ memReadDict t.dict (candidate c s) = some t.lastAssignedCode) := by
  have hemit : emitPrefix (countByte s) (learnOrReset c) = .next t := by
    simpa [execByte, hst, byteMatching, hit, hmiss] using h
  obtain ⟨-, rfl⟩ | ⟨p, u, -, hu, hgo⟩ := emitPrefix_cases hemit
  · exact absurd (raise_state _ _) hlive
  · have hcand : candidate c u = candidate c s := by simp [candidate, bpAppend_pfx hu]
    have hresets : u.nResets = s.nResets := by simp [bpAppend_nResets hu]
    rw [← hcand, ← hresets]
    exact learnOrReset_writes hgo hlive

/-- Settles O21: the two ways a miss writes the store, each read back by the lookup that follows. -/
theorem nextLookupSeesTheLastWrite : Obligations.NextLookupSeesTheLastWrite := by
  intro s t c _ hst hmiss h hlive
  have hwrites := execByte_miss_writes hst hmiss h (by simp [hlive])
  obtain ⟨hresets, hdict⟩ | ⟨hresets, hread⟩ := hwrites
  · refine ⟨fun heq => absurd heq (by omega), fun _ key hkey => ?_⟩
    rw [exec_dictLookup, hdict, memReadDict_singletons_none hkey]
  · refine ⟨fun _ => ?_, fun hne => absurd hresets hne⟩
    have hlast : memReadDict t.dict (s.pfx ++ [c]) = some t.lastAssignedCode := hread
    rw [exec_dictLookup, hlast]

/-! What the commands add to the sink. -/

/-- From `s` to `t` the sink grows at its end by at most `n` bytes, and by none exactly where no code was emitted. -/
def OutputGrowsBy (n : Nat) (s t : State) : Prop :=
  ∃ bytes : List Byte, t.out = s.out ++ bytes ∧ bytes.length ≤ n ∧ (t.codes = s.codes ↔ bytes = [])

/-- A command that emits nothing and leaves the sink alone is within every bound. -/
theorem outputGrowsBy_of_unchanged {n : Nat} {s t : State} (hout : t.out = s.out) (hcodes : t.codes = s.codes) :
    OutputGrowsBy n s t :=
  ⟨[], by simp [hout], by simp, by simp [hcodes]⟩

/-- An emission whose bytes are counted by the lengths of the sink. -/
theorem outputGrowsBy_of_emission {n : Nat} {s t : State} (hpre : s.out <+: t.out) (hcodes : t.codes ≠ s.codes)
    (hlow : s.out.length < t.out.length) (hhigh : t.out.length ≤ s.out.length + n) : OutputGrowsBy n s t := by
  obtain ⟨bytes, hbytes⟩ := hpre
  rw [← hbytes, List.length_append] at hlow hhigh
  have hne : bytes ≠ [] := List.length_pos_iff.1 (by omega)
  exact ⟨bytes, hbytes.symm, by omega, by simp [hcodes, hne]⟩

/-- Later operations that leave the sink and the ghost list alone do not count. -/
theorem OutputGrowsBy.congr {n : Nat} {s t u : State} (h : OutputGrowsBy n s u) (hout : t.out = u.out)
    (hcodes : t.codes = u.codes) : OutputGrowsBy n s t := by
  rwa [OutputGrowsBy, hout, hcodes]

/-- At most 7 bits held and 8 to 32 appended make 1 to 4 whole bytes (43_driver.md R155). -/
theorem bpAppend_out_bounds {code w : Nat} {s t : State} (h7 : s.acc.length ≤ 7) (h : bpAppend code w s = .next t) :
    s.out.length < t.out.length ∧ t.out.length ≤ s.out.length + 4 := by
  obtain ⟨⟨hw8, hw32, -⟩, -, -, -, hlen, -⟩ := bpAppend_spec h
  simp only at hw8 hw32
  omega

theorem bpAppend_codes_ne {code w : Nat} {s t : State} (h : bpAppend code w s = .next t) : t.codes ≠ s.codes := by
  obtain ⟨-, -, ⟨-, -, hcodes⟩, -⟩ := bpAppend_spec h
  simp [hcodes]

theorem bpAppend_out_prefix {code w : Nat} {s t : State} (h : bpAppend code w s = .next t) : s.out <+: t.out := by
  obtain ⟨-, -, -, -, -, hpre, -⟩ := bpAppend_spec h
  exact hpre

theorem bpAppend_outputGrowsBy {code w : Nat} {s t : State} (h7 : s.acc.length ≤ 7)
    (h : bpAppend code w s = .next t) : OutputGrowsBy 4 s t :=
  outputGrowsBy_of_emission (bpAppend_out_prefix h) (bpAppend_codes_ne h) (bpAppend_out_bounds h7 h).1
    (bpAppend_out_bounds h7 h).2

/-- An append and the flush after it: the flush brings at most one byte more (43_driver.md R155). -/
theorem bpFlush_outputGrowsBy {code w : Nat} {s u t : State} (h7 : s.acc.length ≤ 7)
    (hu : bpAppend code w s = .next u) (ht : bpFlush u = .next t) : OutputGrowsBy 5 s t := by
  obtain ⟨-, hacc, -, hlen, hpre, -⟩ := bpFlush_spec ht
  obtain ⟨hlow, hhigh⟩ := bpAppend_out_bounds h7 hu
  refine outputGrowsBy_of_emission ((bpAppend_out_prefix hu).trans hpre) ?_ (by omega) (by omega)
  rw [bpFlush_codes ht]
  exact bpAppend_codes_ne hu

theorem dictInsert_out_codes {key : Key} {code : Nat} {s t : State} (h : dictInsert key code s = .next t) :
    t.out = s.out ∧ t.codes = s.codes := by
  obtain ⟨-, -, -, -, -, rfl⟩ := (dictInsert_eq_next_iff key code s t).1 h
  exact ⟨rfl, rfl⟩

/-- What follows the emission, `CAPACITY` among it, writes nothing to the sink. -/
theorem learnOrReset_out_codes {c : Byte} {s t : State} (h : learnOrReset c s = .next t) :
    t.out = s.out ∧ t.codes = s.codes := by
  obtain ⟨-, rfl⟩ | ⟨-, -, rfl⟩ | ⟨-, -, u, hu, rfl⟩ := learnOrReset_cases h
  · exact ⟨rfl, rfl⟩
  · exact ⟨rfl, rfl⟩
  · simpa using dictInsert_out_codes hu

theorem execByte_outputGrowsBy {c : Byte} {s t : State} (h7 : s.acc.length ≤ 7) (h : execByte c s = .next t) :
    OutputGrowsBy 4 s t := by
  obtain ⟨-, rfl⟩ | ⟨-, rfl⟩ | ⟨-, -, rfl⟩ | ⟨-, -, hmiss⟩ | ⟨-, rfl⟩ := execByte_cases h
  · exact outputGrowsBy_of_unchanged rfl rfl
  · exact outputGrowsBy_of_unchanged rfl rfl
  · exact outputGrowsBy_of_unchanged rfl rfl
  · obtain ⟨-, rfl⟩ | ⟨p, u, -, hu, hgo⟩ := emitPrefix_cases hmiss
    · exact outputGrowsBy_of_unchanged rfl rfl
    · obtain ⟨hout, hcodes⟩ := learnOrReset_out_codes hgo
      have hgrow : OutputGrowsBy 4 (countByte s) u := bpAppend_outputGrowsBy h7 hu
      exact hgrow.congr hout hcodes
  · exact outputGrowsBy_of_unchanged rfl rfl

theorem execEos_outputGrowsBy {s t : State} (h7 : s.acc.length ≤ 7) (h : execEos s = .next t) :
    OutputGrowsBy 5 s t := by
  obtain ⟨-, rfl⟩ | ⟨-, rfl⟩ | ⟨-, -, rfl⟩ | ⟨-, p, u, v, -, hu, hv, rfl⟩ | ⟨-, rfl⟩ := execEos_cases h
  · exact outputGrowsBy_of_unchanged rfl rfl
  · exact outputGrowsBy_of_unchanged rfl rfl
  · exact outputGrowsBy_of_unchanged rfl rfl
  · exact (bpFlush_outputGrowsBy h7 hu hv).congr (finishRun_out v) (finishRun_codes v)
  · exact outputGrowsBy_of_unchanged rfl rfl

/-- `IOERR` flushes nothing (43_driver.md R148). -/
theorem execIoerr_outputGrowsBy {s t : State} (h : execIoerr s = .next t) : OutputGrowsBy 0 s t := by
  obtain ⟨-, rfl⟩ | ⟨-, rfl⟩ | ⟨-, rfl⟩ := execIoerr_cases h <;> exact outputGrowsBy_of_unchanged rfl rfl

/-- Settles O49: each command's own bound, over an accumulator that holds at most 7 bits (10_state.md R20). -/
theorem outputGrowsByAFewBytes : Obligations.OutputGrowsByAFewBytes := by
  intro s t i hinv h hi
  have h7 : s.acc.length ≤ 7 := hinv.1.accShort
  obtain ⟨c, rfl⟩ | rfl | rfl := hi
  · obtain ⟨bytes, hout, hlen, hcodes⟩ := execByte_outputGrowsBy h7 h
    exact ⟨bytes, hout, by omega, fun _ => hlen, by simp, hcodes.1, mt hcodes.2⟩
  · obtain ⟨bytes, hout, hlen, hcodes⟩ := execEos_outputGrowsBy h7 h
    exact ⟨bytes, hout, hlen, by simp, by simp, hcodes.1, mt hcodes.2⟩
  · obtain ⟨bytes, hout, hlen, hcodes⟩ := execIoerr_outputGrowsBy h
    have hnil : bytes = [] := List.length_eq_zero_iff.1 (by omega)
    exact ⟨bytes, hout, by omega, by simp, fun _ => hnil, hcodes.1, mt hcodes.2⟩

end Sys2Proof.Machine
end

section
/-! The encoding family (30_encoding.md R77, R81 to R87): the decoder and the encoder undo each other, the words that spell
nothing, and the sequence of widths of the stream. -/

namespace Sys2Proof

/-! Command words: a 10-bit word is its opcode and its operand bits, and `START` splits the operand bits once more. -/

/-- The `pol` bit reads back as the policy it was written from (10_state.md R22). -/
theorem policyOfBit_bitOfPolicy (pol : Policy) : policyOfBit ((bitOfPolicy pol).getLsbD 0) = pol := by
  cases pol <;> rfl

theorem bitOfPolicy_policyOfBit (b : Bool) : bitOfPolicy (policyOfBit b) = BitVec.ofBool b := by
  cases b <;> rfl

/-- Opcode and operand bits make the word (30_encoding.md R80). -/
theorem opcode_append_low (cmd : BitVec 10) : cmd.extractLsb' 8 2 ++ cmd.extractLsb' 0 8 = cmd := by
  rw [BitVec.extractLsb'_append_extractLsb'_eq_extractLsb' (show 8 = 0 + 8 from rfl), BitVec.extractLsb'_eq_self]

/-- The operand bits of format S (30_encoding.md R83): the reserved bit, `pol`, `mw`. -/
theorem reserved_append_pol_append_mw (cmd : BitVec 10) :
    cmd.extractLsb' 7 1 ++ (BitVec.ofBool (cmd.getLsbD 6) ++ cmd.extractLsb' 0 6) = cmd.extractLsb' 0 8 := by
  have hpol : BitVec.ofBool (cmd.getLsbD 6) = cmd.extractLsb' 6 1 := by
    ext i hi
    obtain rfl : i = 0 := by omega
    simp
  rw [hpol, BitVec.extractLsb'_append_extractLsb'_eq_extractLsb' (show 6 = 0 + 6 from rfl),
    BitVec.extractLsb'_append_extractLsb'_eq_extractLsb' (show 7 = 0 + 7 from rfl)]

theorem decodeCommand_encodeByte (c : Byte) : decodeCommand (encodeByte c) = .ok (.byte c) := by
  have hop : (encodeByte c).extractLsb' 8 2 = 0b00#2 := BitVec.extractLsb'_append_eq_left
  have hlow : (encodeByte c).extractLsb' 0 8 = c := BitVec.extractLsb'_append_eq_right
  rw [decodeCommand, if_pos hop, hlow]

theorem decodeCommand_encodeStart (mw : BitVec 6) (pol : Policy) :
    decodeCommand (encodeStart mw pol) = .ok (.start mw pol) := by
  have hop : (encodeStart mw pol).extractLsb' 8 2 = 0b10#2 := BitVec.extractLsb'_append_eq_left
  have hreserved : (encodeStart mw pol).extractLsb' 7 1 = 0#1 := by
    rw [encodeStart, BitVec.extractLsb'_append_eq_of_add_le (by omega)]
    exact BitVec.extractLsb'_append_eq_left
  have hmw : (encodeStart mw pol).extractLsb' 0 6 = mw := by
    rw [encodeStart, BitVec.extractLsb'_append_eq_of_add_le (by omega),
      BitVec.extractLsb'_append_eq_of_add_le (by omega), BitVec.extractLsb'_append_eq_right]
  have hpol : policyOfBit ((encodeStart mw pol).getLsbD 6) = pol := by
    rw [encodeStart, BitVec.getLsbD_append, BitVec.getLsbD_append, BitVec.getLsbD_append]
    exact policyOfBit_bitOfPolicy pol
  rw [decodeCommand, if_neg (by simp [hop]), if_neg (by simp [hop]), if_pos hop, if_pos hreserved, hmw, hpol]

/-- Settles O1: the four command formats, and each `uop` number with the operands its operation names. -/
theorem encodedInstructionsDecodeBack : Obligations.EncodedInstructionsDecodeBack := by
  intro i
  cases i with
  | byte c => exact decodeCommand_encodeByte c
  | eos => rfl
  | start mw pol => exact decodeCommand_encodeStart mw pol
  | ioerr => rfl
  | dictLookup key => rfl
  | dictInsert key code => rfl
  | dictReset => rfl
  | cwWidth => rfl
  | cwResetDue => rfl
  | bpAppend code width => rfl
  | bpFlush => rfl

/-- A command word is fixed by what it decodes to: in each accepted branch the checked bits and the operands make up the
whole word. -/
theorem encode_of_decodeCommand {cmd : BitVec 10} {i : Instr} (h : decodeCommand cmd = .ok i) :
    encode i = .word cmd := by
  rw [← opcode_append_low cmd]
  unfold decodeCommand at h
  split_ifs at h with hbyte heos hlow hstart hreserved hioerr
  · obtain rfl := Except.ok.inj h
    rw [hbyte, encode, encodeByte]
  · obtain rfl := Except.ok.inj h
    rw [heos, hlow, encode, encodeEos]
  · obtain rfl := Except.ok.inj h
    rw [hstart, ← reserved_append_pol_append_mw cmd, hreserved, encode, encodeStart, bitOfPolicy_policyOfBit]
  · obtain rfl := Except.ok.inj h
    have hop : cmd.extractLsb' 8 2 = 0b11#2 := by bv_omega
    rw [hop, hioerr, encode, encodeIoerr]

/-- A `uop` number is fixed by the operation it names (30_encoding.md R87). -/
theorem encode_of_decodeCall {uop : BitVec 4} {operands : CallOperands} {i : Instr}
    (h : decodeCall uop operands = .ok i) : ∃ named : CallOperands, encode i = .call uop named := by
  unfold decodeCall at h
  split at h
  case h_8 => cases h
  all_goals
    next hnum =>
    obtain rfl := Except.ok.inj h
    exact ⟨_, congrArg (Request.call · _) (BitVec.eq_of_toNat_eq hnum.symm)⟩

/-- Settles O2: a word is fixed by its opcode, its checked bits and its operands, a call by its `uop` number. -/
theorem decodedRequestsEncodeBack : Obligations.DecodedRequestsEncodeBack :=
  ⟨fun _ _ h => encode_of_decodeCommand h, fun _ _ _ h => encode_of_decodeCall h⟩

/-! The decoder's three tests as arithmetic on the word. -/

theorem opcode_eq_iff (cmd : BitVec 10) (op : BitVec 2) : cmd.extractLsb' 8 2 = op ↔ cmd.toNat / 256 = op.toNat := by
  have := cmd.isLt
  rw [← BitVec.toNat_inj, BitVec.extractLsb'_toNat, Nat.shiftRight_eq_div_pow]
  omega

theorem low_eq_zero_iff (cmd : BitVec 10) : cmd.extractLsb' 0 8 = 0#8 ↔ cmd.toNat % 256 = 0 := by
  rw [← BitVec.toNat_inj, BitVec.extractLsb'_toNat]
  rfl

theorem reserved_eq_zero_iff (cmd : BitVec 10) : cmd.extractLsb' 7 1 = 0#1 ↔ cmd.toNat / 128 % 2 = 0 := by
  rw [← BitVec.toNat_inj, BitVec.extractLsb'_toNat, Nat.shiftRight_eq_div_pow]
  rfl

/-- Settles O3: each reserved range is one rejecting branch of the decoder, and the accepting branches lie outside all
three. -/
theorem illegalWordsAreTheReservedRanges : Obligations.IllegalWordsAreTheReservedRanges := by
  intro cmd
  have hlt := cmd.isLt
  simp only [decode, decodeCommand, opcode_eq_iff, low_eq_zero_iff, reserved_eq_zero_iff, BitVec.toNat_ofNat]
  split_ifs with hbyte heos hlow hstart hreserved hioerr
  · exact iff_of_false (by simp) (by omega)
  · exact iff_of_false (by simp) (by omega)
  · exact iff_of_true ⟨_, rfl⟩ (by omega)
  · exact iff_of_false (by simp) (by omega)
  · exact iff_of_true ⟨_, rfl⟩ (by omega)
  · exact iff_of_false (by simp) (by omega)
  · exact iff_of_true ⟨_, rfl⟩ (by omega)

/-- Settles O4, by running the decoder on each word. -/
theorem sampleWordsDecodeAsTheSpecSays : Obligations.SampleWordsDecodeAsTheSpecSays := by
  unfold Obligations.SampleWordsDecodeAsTheSpecSays
  decide

/-- "Values 0 and 8 to 15 of `uop` name nothing" (30_encoding.md R87). -/
theorem decodeCall_of_unnamed {uop : BitVec 4} (h : uop.toNat = 0 ∨ 8 ≤ uop.toNat) (operands : CallOperands) :
    decodeCall uop operands = .error .unknownUop := by
  unfold decodeCall
  split
  case h_8 => rfl
  all_goals omega

namespace Machine

/-- A request that spells nothing is taken by the reject of its reason. -/
theorem takeInput_request_of_reject {r : Request} {why : DecodeReject} (h : decode r = .error why) (s : State) :
    takeInput (.request r) s = rejectRequest why s := by
  simp only [takeInput, takeRequest, h]

/-- Settles O8: the call is taken off the queue, decodes to no operation, and its reject is the refusal. -/
theorem unnamedUopIsRefused : Obligations.UnnamedUopIsRefused := by
  intro s uop operands later hin hnum
  have hdec : decode (.call uop operands) = .error .unknownUop := decodeCall_of_unnamed hnum operands
  rw [step_of_inputs_cons hin, takeInput_request_of_reject hdec]
  rfl

/-! The width sequence of the stream (30_encoding.md R77). -/

/-- The reset rule of the tracker is the rule of the sequence: from position `k` it moves to 255 or up by one. -/
theorem counterAfter_succ {s : State} {k : Nat}
    (h : s.lastAssignedCode.toNat = counterAfter s.policy s.maxWidth.toNat k) :
    counterAfter s.policy s.maxWidth.toNat (k + 1) = if resetDue s = true then 255 else nextCode s := by
  rw [counterAfter, ← h]
  exact if_congr (by rw [resetDue_iff, lt_bitLength_iff]) rfl rfl

/-- The state between the emission of a code and what follows it: the widths stand as in `WidthInv`, and the counter is
still the one the last code was emitted at. -/
structure JustEmitted (s : State) : Prop where
  widths : s.codes.map (fun e => e.width) =
    (List.range s.codes.length).map fun k => max 8 (bitLength (counterAfter s.policy s.maxWidth.toNat k))
  nonempty : s.codes ≠ []
  counter : s.lastAssignedCode.toNat = counterAfter s.policy s.maxWidth.toNat (s.codes.length - 1)

/-- An emission at the current width adds the next width of the sequence. -/
theorem WidthInv.emit {s u : State} {code : Nat} (h : WidthInv s) (hst : s.state = .matching)
    (hu : bpAppend code (width s) s = .next u) : JustEmitted u := by
  obtain ⟨-, -, ⟨-, -, hcodes⟩, -⟩ := bpAppend_spec hu
  have hcounter := h.counter (by simp [hst])
  constructor
  · rw [hcodes, bpAppend_policy hu, bpAppend_maxWidth hu, List.map_append, h.widths, List.length_append,
      List.length_singleton, List.range_succ, List.map_append, List.map_singleton, List.map_singleton, ← hcounter]
    rfl
  · simp [hcodes]
  · rw [hcodes, bpAppend_policy hu, bpAppend_maxWidth hu, bpAppend_lastAssignedCode hu, hcounter]
    simp

/-- What follows an emission brings the counter to the next position of the sequence. -/
theorem JustEmitted.advance {s : State} (h : JustEmitted s) :
    counterAfter s.policy s.maxWidth.toNat s.codes.length = if resetDue s = true then 255 else nextCode s := by
  have hpos := List.length_pos_iff.2 h.nonempty
  rw [← counterAfter_succ h.counter, Nat.sub_add_cancel hpos]

/-- The reset and the insertion alike leave the counter where the sequence says; `CAPACITY` leaves the run. -/
theorem learnOrReset_widthInv {c : Byte} {s t : State} (h : JustEmitted s) (hst : s.state = .matching)
    (ht : learnOrReset c s = .next t) (hrun : inRun t = true) : WidthInv t := by
  have hnext := h.advance
  obtain ⟨hdue, rfl⟩ | ⟨-, -, rfl⟩ | ⟨hdue, -, u, hu, rfl⟩ := learnOrReset_cases ht
  · rw [if_pos hdue] at hnext
    exact ⟨h.widths, fun _ => hnext.symm, by simp [countedReset, dictReset, hst]⟩
  · simp [inRun] at hrun
  · obtain ⟨-, -, -, hlt, -, rfl⟩ := (dictInsert_eq_next_iff _ _ _ _).1 hu
    rw [if_neg (by simp [hdue])] at hnext
    have hcode : (BitVec.ofNat 32 (nextCode s)).toNat = nextCode s := by rw [BitVec.toNat_ofNat, Nat.mod_eq_of_lt hlt]
    exact ⟨h.widths, fun _ => hcode.trans hnext.symm, by simp [hst]⟩

/-- The flush and the end of the run emit no code and leave the counter. -/
theorem JustEmitted.finish {s t : State} (h : JustEmitted s) (ht : bpFlush s = .next t) : WidthInv (finishRun t) := by
  obtain ⟨-, -, -, -, -, hframe⟩ := bpFlush_spec ht
  rw [hframe]
  exact ⟨h.widths, by simp, fun _ => h.counter⟩

/-- A run begins with no code emitted and the counter at `L_1`. -/
theorem widthInv_enterRun (d : Dict) (mw : BitVec 6) (pol : Policy) (s : State) :
    WidthInv (enterRun d 255#32 (openRun mw pol s)) :=
  ⟨rfl, fun _ => rfl, by simp⟩

theorem execByte_widthInv {c : Byte} {s t : State} (h : inRun s = true → WidthInv s) (ht : execByte c s = .next t)
    (hrun : inRun t = true) : WidthInv t := by
  obtain ⟨-, rfl⟩ | ⟨hst, rfl⟩ | ⟨hst, -, rfl⟩ | ⟨hst, -, hmiss⟩ | ⟨-, rfl⟩ := execByte_cases ht
  · simp [inRun] at hrun
  · have hw := h (inRun_of_awaitFirstByte hst)
    exact ⟨hw.widths, fun _ => hw.counter (by simp [hst]), by simp⟩
  · have hw := h (inRun_of_matching hst)
    exact ⟨hw.widths, hw.counter, hw.counterDone⟩
  · have hw : WidthInv s := h (inRun_of_matching hst)
    have hcount : WidthInv (countByte s) := ⟨hw.widths, hw.counter, hw.counterDone⟩
    obtain ⟨-, rfl⟩ | ⟨p, u, -, hu, hgo⟩ := emitPrefix_cases hmiss
    · simp [inRun] at hrun
    · exact learnOrReset_widthInv (hcount.emit hst hu) ((bpAppend_state hu).trans hst) hgo hrun
  · exact h hrun

theorem execEos_widthInv {s t : State} (h : inRun s = true → WidthInv s) (ht : execEos s = .next t)
    (hrun : inRun t = true) : WidthInv t := by
  obtain ⟨-, rfl⟩ | ⟨-, rfl⟩ | ⟨-, -, rfl⟩ | ⟨hst, p, u, v, -, hu, hv, rfl⟩ | ⟨-, rfl⟩ := execEos_cases ht
  · simp [inRun] at hrun
  · simp [inRun] at hrun
  · simp [inRun] at hrun
  · exact ((h (inRun_of_matching hst)).emit hst hu).finish hv
  · exact h hrun

theorem execStart_widthInv {mw : BitVec 6} {pol : Policy} {s t : State} (ht : execStart mw pol s = .next t)
    (hrun : inRun t = true) : WidthInv t := by
  obtain ⟨-, -, rfl⟩ | ⟨-, -, rfl⟩ | ⟨-, -, rfl⟩ := execStart_cases ht
  · simp [inRun] at hrun
  · exact widthInv_enterRun singletons mw pol s
  · simp [inRun] at hrun

/-- A command that is not taken, and a word that spells none, end in `FAILED` (43_driver.md R149 to R151). -/
theorem protocolError_not_inRun (s : State) : inRun (protocolError s) = false := by
  by_cases hs : s.state = .failed
  · rw [protocolError_failed s hs, inRun, hs]
  · rw [protocolError_live s hs]
    rfl

/-- `IOERR` ends in `FAILED` from every state (43_driver.md R148, R150, R151). -/
theorem execIoerr_not_inRun {s t : State} (ht : execIoerr s = .next t) : inRun t = false := by
  obtain ⟨-, rfl⟩ | ⟨-, rfl⟩ | ⟨hs, rfl⟩ := execIoerr_cases ht
  · rfl
  · rfl
  · rw [inRun, hs]

theorem takeRequest_word_widthInv {cmd : BitVec 10} {s t : State} (h : inRun s = true → WidthInv s)
    (ht : takeRequest (.word cmd) s = .next t) (hrun : inRun t = true) : WidthInv t := by
  unfold takeRequest at ht
  split at ht
  · next i hdec =>
    obtain ⟨c, rfl⟩ | rfl | ⟨mw, pol, rfl⟩ | rfl := decodeCommand_cases hdec
    · exact execByte_widthInv h ht hrun
    · exact execEos_widthInv h ht hrun
    · exact execStart_widthInv ht hrun
    · simp [execIoerr_not_inRun ht] at hrun
  · rw [rejectRequest_cases ht, protocolError_not_inRun] at hrun
    cases hrun

/-- The queue stands outside the width sequence. -/
theorem WidthInv.setInputs {s : State} (h : WidthInv s) (later : List Input) : WidthInv (setInputs later s) :=
  ⟨h.widths, h.counter, h.counterDone⟩

theorem takeInput_widthInv {x : Input} {s t : State} (h : inRun s = true → WidthInv s) (hx : PortMove x)
    (ht : takeInput x s = .next t) (hrun : inRun t = true) : WidthInv t := by
  cases x with
  | request r =>
    cases r with
    | word cmd => exact takeRequest_word_widthInv h ht hrun
    | call uop operands => exact hx.elim
  | hardReset =>
    obtain rfl := Host.Outcome.next.inj ht
    simp [inRun] at hrun
  | startSeeded mw pol d last => exact hx.elim

/-- Settles O46: a code is emitted at the width of its position, and one reset or one insertion follows it (43_driver.md
R156); everything else leaves the sequence alone or leaves the run. -/
theorem portMovesKeepTheWidthSequence : Obligations.PortMovesKeepTheWidthSequence := by
  intro s t _ h hmove ht hrun
  obtain ⟨-, rfl⟩ | ⟨x, later, hi, hx⟩ := step_cases ht
  · exact h hrun
  · have hport : PortMove x := hmove x (by simp [hi])
    exact takeInput_widthInv (s := setInputs later s) (fun hr => (h hr).setInputs later) hport hx hrun

end Machine
end Sys2Proof
end

section
/-! The dictionary family (40_dictionary.md R100 to R104): what a lookup answers, what an insertion and a reset leave, and
what an instruction can do to the store. -/

namespace Sys2Proof.Machine

/-- Settles O26: in canonical form a read answers exactly the entries of the store. -/
theorem lookupAnswersTheExactMatch : Obligations.LookupAnswersTheExactMatch := by
  intro s key hs
  refine ⟨memReadDict s.dict key, exec_dictLookup key s, memReadDict_eq_some_iff hs.dictWf key,
    memReadDict_eq_none_iff s.dict key, ?_⟩
  rintro hd b rfl
  exact hd.singles b

theorem toNat_ofNat_code {code : Nat} (h : code < 2 ^ 32) : (BitVec.ofNat 32 code).toNat = code := by
  rw [BitVec.toNat_ofNat, Nat.mod_eq_of_lt h]

/-- A code that no entry has, compared as numbers, is not in use. -/
theorem codeInUse_ofNat_eq_false {d : Dict} {code : Nat} (hlt : code < 2 ^ 32) (hfree : ∀ e ∈ d, e.code.toNat ≠ code) :
    codeInUse d (BitVec.ofNat 32 code) = false := by
  refine (codeInUse_eq_false_iff d _).2 fun e he heq => hfree e he ?_
  rw [heq, toNat_ofNat_code hlt]

/-- Settles O27: under the preconditions `DICT.INSERT` is the write of the store and of the counter. -/
theorem insertAddsTheEntry : Obligations.InsertAddsTheEntry := by
  intro s key code hkey habs hnext hlt hfree
  have hins : dictInsert key code s = .next (learn key (BitVec.ofNat 32 code) s) :=
    (dictInsert_eq_next_iff key code s _).2 ⟨hkey, habs, hnext, hlt, codeInUse_ofNat_eq_false hlt hfree, rfl⟩
  exact ⟨_, hins, toNat_ofNat_code hlt, length_memWriteDict s.dict key _, memReadDict_memWriteDict _ habs, rfl⟩

/-- With the counter of the singletons the width is at its clamp (41_code_width.md R115). -/
theorem width_of_lastAssignedCode {s : State} (h : s.lastAssignedCode = 255#32) : width s = 8 := by
  rw [width, h]
  rfl

/-- Settles O29: the reset writes the singletons and their counter alone. -/
theorem dictResetRestoresTheSingletons : Obligations.DictResetRestoresTheSingletons := fun s =>
  ⟨dictReset s, rfl, holdsOnlySingletons_singletons, width_of_lastAssignedCode (dictReset_lastAssignedCode s), rfl⟩

/-! What an instruction can do to the store and its counter (40_dictionary.md R101 to R104). -/

/-- From `s` to `t` the store and its counter stay, or are reset, or take one absent key under the next code. -/
inductive StoreChange (s t : State) : Prop where
  | kept (dict : t.dict = s.dict) (counter : t.lastAssignedCode = s.lastAssignedCode)
  | reset (dict : t.dict = singletons) (counter : t.lastAssignedCode = 255#32)
  | inserted (key : Key) (absent : memReadDict s.dict key = none)
      (dict : t.dict = memWriteDict s.dict key t.lastAssignedCode)
      (counter : t.lastAssignedCode.toNat = s.lastAssignedCode.toNat + 1)

/-- Only the store and its counter matter, on both sides. -/
theorem StoreChange.congr {s t s' t' : State} (h : StoreChange s t) (hsd : s'.dict = s.dict)
    (hsl : s'.lastAssignedCode = s.lastAssignedCode) (htd : t'.dict = t.dict)
    (htl : t'.lastAssignedCode = t.lastAssignedCode) : StoreChange s' t' := by
  cases h with
  | kept dict counter => exact .kept (by rw [htd, hsd, dict]) (by rw [htl, hsl, counter])
  | reset dict counter => exact .reset (htd.trans dict) (htl.trans counter)
  | inserted key absent dict counter =>
    exact .inserted key (by rw [hsd, absent]) (by rw [htd, hsd, htl, dict]) (by rw [htl, hsl, counter])

theorem dictInsert_storeChange {key : Key} {code : Nat} {s t : State} (h : dictInsert key code s = .next t) :
    StoreChange s t := by
  obtain ⟨-, habs, rfl, hlt, -, rfl⟩ := (dictInsert_eq_next_iff key code s t).1 h
  exact .inserted key habs rfl (toNat_ofNat_code hlt)

theorem learnOrReset_storeChange {c : Byte} {s t : State} (h : learnOrReset c s = .next t) : StoreChange s t := by
  obtain ⟨-, rfl⟩ | ⟨-, -, rfl⟩ | ⟨-, -, u, hu, rfl⟩ := learnOrReset_cases h
  · exact .reset rfl rfl
  · exact .kept rfl rfl
  · exact (dictInsert_storeChange hu).congr rfl rfl rfl rfl

theorem execByte_storeChange {c : Byte} {s t : State} (h : execByte c s = .next t) : StoreChange s t := by
  obtain ⟨-, rfl⟩ | ⟨-, rfl⟩ | ⟨-, -, rfl⟩ | ⟨-, -, hmiss⟩ | ⟨-, rfl⟩ := execByte_cases h
  · exact .kept rfl rfl
  · exact .kept rfl rfl
  · exact .kept rfl rfl
  · obtain ⟨-, rfl⟩ | ⟨p, u, -, hu, hgo⟩ := emitPrefix_cases hmiss
    · exact .kept rfl rfl
    · exact (learnOrReset_storeChange hgo).congr (bpAppend_dict hu).symm (bpAppend_lastAssignedCode hu).symm rfl rfl
  · exact .kept rfl rfl

/-- An accepted `START` has the effect of a reset on the store (40_dictionary.md R103); any other leaves it. -/
theorem execStart_storeChange {mw : BitVec 6} {pol : Policy} {s t : State} (h : execStart mw pol s = .next t) :
    StoreChange s t := by
  obtain ⟨-, -, rfl⟩ | ⟨-, -, rfl⟩ | ⟨-, -, rfl⟩ := execStart_cases h
  · exact .kept rfl rfl
  · exact .reset rfl rfl
  · exact .kept rfl rfl

theorem exec_storeChange {i : Instr} {s t : State} (h : exec i s = .next t) : StoreChange s t := by
  cases i with
  | byte c => exact execByte_storeChange h
  | eos =>
    obtain ⟨hdict, hcounter⟩ := execEos_dict h
    exact .kept hdict hcounter
  | start mw pol => exact execStart_storeChange h
  | ioerr =>
    obtain ⟨hdict, hcounter⟩ := execIoerr_dict h
    exact .kept hdict hcounter
  | dictLookup key =>
    obtain rfl := Host.Outcome.next.inj h
    exact .kept rfl rfl
  | dictInsert key code => exact dictInsert_storeChange h
  | dictReset =>
    obtain rfl := Host.Outcome.next.inj h
    exact .reset rfl rfl
  | cwWidth =>
    obtain rfl := Host.Outcome.next.inj h
    exact .kept rfl rfl
  | cwResetDue =>
    obtain rfl := Host.Outcome.next.inj h
    exact .kept rfl rfl
  | bpAppend code width => exact .kept (bpAppend_dict h) (bpAppend_lastAssignedCode h)
  | bpFlush => exact .kept (bpFlush_dict h) (bpFlush_lastAssignedCode h)

/-- A write of an absent key keeps every read that answers. -/
theorem memReadDict_memWriteDict_of_some {d : Dict} {key k : Key} {c : Code} (code : Code)
    (habs : memReadDict d key = none) (h : memReadDict d k = some c) : memReadDict (memWriteDict d key code) k = some c := by
  have hne : k ≠ key := by
    rintro rfl
    simp [habs] at h
  rw [memReadDict_memWriteDict_ne d code hne, h]

/-- Settles O30: a store that stays or takes an absent key keeps every entry, and the one other change is the full reset. -/
theorem entriesLeaveOnlyByFullReset : Obligations.EntriesLeaveOnlyByFullReset := by
  intro i s t h
  cases exec_storeChange h with
  | kept dict =>
    rw [dict]
    exact .inr ⟨fun _ _ hread => hread, .inl rfl⟩
  | reset dict =>
    rw [dict]
    exact .inl holdsOnlySingletons_singletons
  | inserted key absent dict =>
    rw [dict]
    exact .inr ⟨fun _ _ hread => memReadDict_memWriteDict_of_some _ absent hread,
      .inr (length_memWriteDict s.dict key _)⟩

end Sys2Proof.Machine
end

section
/-! The code-width family (41_code_width.md R115 to R123): the width as a function of the counter, how an instruction moves
both, and what a `BYTE` does where the next code has no place. -/

namespace Sys2Proof.Machine

/-! The width as a function of the counter (41_code_width.md R115, R118, R119). -/

/-- Above the clamp, a width suffices exactly where the counter fits it. -/
theorem width_le_iff {s : State} {k : Nat} (hk : 8 ≤ k) : width s ≤ k ↔ s.lastAssignedCode.toNat < 2 ^ k := by
  rw [width, max_le_iff, bitLength_le_iff, and_iff_right hk]

theorem lt_width_iff {s : State} {k : Nat} (hk : 8 ≤ k) : k < width s ↔ 2 ^ k ≤ s.lastAssignedCode.toNat := by
  rw [← not_le, width_le_iff hk, not_lt]

/-- The width depends on the counter alone. -/
theorem width_congr {s t : State} (h : t.lastAssignedCode = s.lastAssignedCode) : width t = width s := by
  rw [width, width, h]

theorem width_mono {s t : State} (h : s.lastAssignedCode.toNat ≤ t.lastAssignedCode.toNat) : width s ≤ width t :=
  max_le_max_left 8 (bitLength_mono h)

/-- From a counter of 128 up the clamp of 41_code_width.md R115 has no effect. -/
theorem width_eq_bitLength {s : State} (h : 128 ≤ s.lastAssignedCode.toNat) :
    width s = bitLength s.lastAssignedCode.toNat :=
  max_eq_right ((lt_bitLength_iff _ 7).2 h)

/-- An advance of the counter by one widens it by one bit exactly where the next code does not fit the present width. -/
theorem width_of_advance {s t : State} (h : t.lastAssignedCode.toNat = nextCode s) :
    width t = if nextCode s = 2 ^ width s then width s + 1 else width s := by
  have hfits : s.lastAssignedCode.toNat < 2 ^ width s := lt_two_pow_width le_rfl
  have hnext : nextCode s = s.lastAssignedCode.toNat + 1 := rfl
  have hge := width_ge s
  split
  · next heq =>
    rw [heq] at h
    apply le_antisymm
    · rw [width_le_iff (by omega), h]
      exact Nat.pow_lt_pow_right (by omega) (by omega)
    · rw [Nat.succ_le_iff, lt_width_iff hge, h]
  · next hne =>
    apply le_antisymm
    · rw [width_le_iff hge]
      omega
    · exact width_mono (by omega)

/-- The only power of two from `2^8` up that the next code can be is that of the present width. -/
theorem nextCode_eq_two_pow_width_iff (s : State) :
    nextCode s = 2 ^ width s ↔ ∃ k, 8 ≤ k ∧ nextCode s = 2 ^ k := by
  refine ⟨fun h => ⟨width s, width_ge s, h⟩, ?_⟩
  rintro ⟨k, hk, h⟩
  have hnext : nextCode s = s.lastAssignedCode.toNat + 1 := rfl
  have hwk : width s ≤ k := (width_le_iff hk).2 (by omega)
  have hfits : s.lastAssignedCode.toNat < 2 ^ width s := lt_two_pow_width le_rfl
  have hkw : k ≤ width s := (Nat.pow_le_pow_iff_right (by omega)).1 (show 2 ^ k ≤ 2 ^ width s by omega)
  rw [h, le_antisymm hkw hwk]

/-- Settles O34: of the three changes of the store, one keeps the width, one brings it to the clamp, and the advance by one
widens it at the powers of two. -/
theorem widthFallsOnlyByReset : Obligations.WidthFallsOnlyByReset := by
  intro i s t h
  refine ⟨width_eq_bitLength, ?_⟩
  cases exec_storeChange h with
  | kept dict counter => exact .inl ⟨counter, width_congr counter⟩
  | reset dict counter =>
    refine .inr (.inl ⟨counter, width_of_lastAssignedCode counter, ?_⟩)
    rw [dict]
    exact holdsOnlySingletons_singletons
  | inserted key absent dict counter =>
    have hnext : t.lastAssignedCode.toNat = nextCode s := counter
    refine .inr (.inr ⟨counter, ?_⟩)
    rw [width_of_advance hnext, hnext, ← nextCode_eq_two_pow_width_iff]
    split <;> simp [*]

/-- Settles O35: the singletons' counter is above the clamp, and a counter within `max_width` needs no wider code. -/
theorem widthStaysInTheConfiguredRange : Obligations.WidthStaysInTheConfiguredRange := by
  intro s hinv hrun
  have hr : RunInv s := hinv.2 hrun
  have hlow := hr.lastLow
  refine ⟨width_eq_bitLength (by omega), width_ge s, width_le s, fun hpol => ?_⟩
  obtain ⟨h9, h32⟩ := (mwValid_iff s.maxWidth).1 hr.cfgValid
  have hhigh := hr.lastHigh hpol
  have hpow := (two_pow_bounds hr.cfgValid).1
  exact ⟨(width_le_iff (by omega)).2 (by omega), h32⟩

/-- Settles O32: the width holds the counter, and one bit less, above the clamp, does not. -/
theorem widthIsTheClampedBitLength : Obligations.WidthIsTheClampedBitLength := fun s =>
  ⟨width s, rfl, width_ge s, width_le s, lt_two_pow_width le_rfl, fun h => (lt_width_iff (by omega)).1 (by omega)⟩

/-- Settles O33: the call answers `reset_due`, whose test on bit lengths is that of 41_code_width.md R116 on powers of
two. -/
theorem resetDueComparesTheNextCode : Obligations.ResetDueComparesTheNextCode := fun s =>
  ⟨resetDue s, rfl, resetDue_iff s⟩

/-! What an emission and the miss arm after it answer, by the flags they read (43_driver.md R145). -/

theorem emitPrefix_of_absent {s : State} (hp : memReadDict s.dict s.pfx = none)
    (goOn : State → Host.Outcome State Fault Refusal) : emitPrefix s goOn = .next (raise .internal s) := by
  rw [emitPrefix, dictLookup, hp]

theorem emitPrefix_of_append {s u : State} {p : Code} (hp : memReadDict s.dict s.pfx = some p)
    (hu : bpAppend p.toNat (width s) s = .next u) (goOn : State → Host.Outcome State Fault Refusal) :
    emitPrefix s goOn = goOn u := by
  simp only [emitPrefix, dictLookup, hp, hu, andThen_next]

theorem learnOrReset_of_resetDue {s : State} (hdue : resetDue s = true) (c : Byte) :
    learnOrReset c s = .next (setPrefix [c] (countedReset s)) := by
  rw [learnOrReset, if_pos hdue]

theorem learnOrReset_of_capacityFull {s : State} (hdue : resetDue s = false) (hfull : capacityFull s = true) (c : Byte) :
    learnOrReset c s = .next (raise .capacity s) := by
  rw [learnOrReset, if_neg (by simp [hdue]), if_pos hfull]

theorem learnOrReset_of_insert {c : Byte} {s u : State} (hdue : resetDue s = false) (hfull : capacityFull s = false)
    (hu : dictInsert (candidate c s) (nextCode s) s = .next u) : learnOrReset c s = .next (setPrefix [c] u) := by
  rw [learnOrReset, if_neg (by simp [hdue]), if_neg (by simp [hfull]), hu, andThen_next]

/-- `GROWTH_ONLY` never resets (41_code_width.md R120). -/
theorem resetDue_of_growthOnly {s : State} (h : s.policy = .growthOnly) : resetDue s = false := by
  simp [resetDue, h]

/-! A miss where the next code has no place (41_code_width.md R122, R123). -/

/-- In the invariant a miss emits the matched key's code at the current width and goes on to the miss arm's second half. -/
theorem exec_byte_miss {s : State} {c : Byte} {p : Code} (hinv : Inv s) (hst : s.state = .matching)
    (hmiss : memReadDict s.dict (s.pfx ++ [c]) = none) (hp : memReadDict s.dict s.pfx = some p) :
    ∃ u, bpAppend p.toNat (width s) s = .next u ∧ exec (.byte c) s = learnOrReset c (countByte u) := by
  obtain ⟨u, hu⟩ := (hinv.2 (inRun_of_matching hst)).emit hst hp
  refine ⟨u, hu, ?_⟩
  have hmatch : exec (.byte c) s = emitPrefix (countByte s) (learnOrReset c) := by
    simp [exec, execByte, hst, byteMatching, hit, candidate, hmiss]
  have hcount : bpAppend p.toNat (width (countByte s)) (countByte s) = .next (countByte u) := bpAppend_countByte hu
  rw [hmatch]
  exact emitPrefix_of_append (s := countByte s) hp hcount _

/-- Settles O17: the emission leaves `cfg` and the counter, so the reset it finds due is the one due before it, and the
candidate, longer than any singleton, is absent after it. -/
theorem byteMissAtFullCounterResets : Obligations.ByteMissAtFullCounterResets := by
  intro s c p hinv hst hmiss hp hpol hfull
  obtain ⟨u, hu, hexec⟩ := exec_byte_miss hinv hst hmiss hp
  obtain ⟨-, -, happ, -, -, -, hframe⟩ := bpAppend_spec hu
  have hdue : resetDue (countByte u) = true := by
    rw [resetDue_iff, hframe]
    exact ⟨hpol, hfull⟩
  rw [hexec, learnOrReset_of_resetDue hdue]
  have hlen : (s.pfx ++ [c]).length ≠ 1 := by
    simpa using hinv.1.prefixNonempty
  refine ⟨_, rfl, happ, holdsOnlySingletons_singletons, memReadDict_singletons_none hlen,
    width_of_lastAssignedCode rfl, rfl, ?_⟩
  rw [hframe]
  rfl

/-- Settles O18: the emission leaves the counter at its top, so what follows it is `CAPACITY`, and an error entry keeps the
bytes emitted. -/
theorem byteMissAtTheTopRaisesCapacity : Obligations.ByteMissAtTheTopRaisesCapacity := by
  intro s c p hinv hst hmiss hp hpol htop
  obtain ⟨u, hu, hexec⟩ := exec_byte_miss hinv hst hmiss hp
  obtain ⟨-, -, happ, -, -, -, hframe⟩ := bpAppend_spec hu
  have hgrow : (countByte u).policy = .growthOnly := (bpAppend_policy hu).trans hpol
  have hfull : capacityFull (countByte u) = true := by
    rw [capacityFull_iff, hframe]
    exact ⟨hpol, htop⟩
  rw [hexec, learnOrReset_of_capacityFull (resetDue_of_growthOnly hgrow) hfull]
  refine ⟨_, u, rfl, happ, rfl, ?_⟩
  rw [hframe]
  rfl

/-! `cfg.max_width` under `GROWTH_ONLY` (41_code_width.md R120): every instruction but `START` commutes with a change of
it. -/

/-- Another `cfg.max_width`, all else as in `s`. -/
def setMaxWidth (mw : BitVec 6) (s : State) : State := { s with maxWidth := mw }

@[simp] theorem setMaxWidth_state (mw : BitVec 6) (s : State) : (setMaxWidth mw s).state = s.state := rfl
@[simp] theorem setMaxWidth_acc (mw : BitVec 6) (s : State) : (setMaxWidth mw s).acc = s.acc := rfl
@[simp] theorem hit_setMaxWidth (c : Byte) (mw : BitVec 6) (s : State) : hit c (setMaxWidth mw s) = hit c s := rfl

theorem protocolError_setMaxWidth (mw : BitVec 6) (s : State) :
    protocolError (setMaxWidth mw s) = setMaxWidth mw (protocolError s) := by
  by_cases hs : s.state = .failed
  · rw [protocolError_failed s hs, protocolError_failed (setMaxWidth mw s) hs]
  · rw [protocolError_live s hs, protocolError_live (setMaxWidth mw s) hs]
    rfl

theorem drainLoop_setMaxWidth (mw : BitVec 6) (turns : Nat) (s : State) :
    drainLoop turns (setMaxWidth mw s) = setMaxWidth mw (drainLoop turns s) := by
  induction turns generalizing s with
  | zero => rfl
  | succ turns ih =>
    rw [drainLoop, drainLoop, setMaxWidth_acc]
    split
    · exact ih (extractByte s)
    · rfl

/-- A flush that answers writes `out`, `acc` and the model's own mark, from `out` and `acc` alone. -/
theorem bpFlush_of_open {s : State} (hopen : s.flushed = false) (hshort : s.acc.length ≤ 7) :
    bpFlush s = .next { s with
      out := if accNonempty s = true then s.out ++ [flushByte s.acc] else s.out, acc := [], flushed := true } := by
  rw [bpFlush, if_neg (by simp [hopen]), if_neg (by omega)]
  by_cases hheld : accNonempty s = true
  · simp only [if_pos hheld]
    rfl
  · simp only [if_neg hheld]
    rfl

section
variable {s t : State} (mw : BitVec 6)

theorem bpAppend_setMaxWidth {code w : Nat} (h : bpAppend code w s = .next t) :
    bpAppend code w (setMaxWidth mw s) = .next (setMaxWidth mw t) := by
  obtain ⟨hrange, hopen, rfl⟩ := (bpAppend_eq_next_iff code w s t).1 h
  exact (bpAppend_eq_next_iff code w _ _).2
    ⟨hrange, hopen, (drainLoop_setMaxWidth mw _ (pushCode code w s)).symm⟩

theorem bpFlush_setMaxWidth (h : bpFlush s = .next t) : bpFlush (setMaxWidth mw s) = .next (setMaxWidth mw t) := by
  obtain ⟨hopen, hshort, -⟩ := bpFlush_spec h
  rw [bpFlush_of_open hopen hshort] at h
  obtain rfl := Host.Outcome.next.inj h
  exact bpFlush_of_open (s := setMaxWidth mw s) hopen hshort

theorem dictInsert_setMaxWidth {key : Key} {code : Nat} (h : dictInsert key code s = .next t) :
    dictInsert key code (setMaxWidth mw s) = .next (setMaxWidth mw t) := by
  obtain ⟨hkey, habs, hnext, hlt, hfree, rfl⟩ := (dictInsert_eq_next_iff key code s t).1 h
  exact (dictInsert_eq_next_iff key code _ _).2 ⟨hkey, habs, hnext, hlt, hfree, rfl⟩

/-- An emission commutes where what follows it does; what follows sees the policy of before. -/
theorem emitPrefix_setMaxWidth {goOn : State → Host.Outcome State Fault Refusal} (h : emitPrefix s goOn = .next t)
    (hgo : ∀ u, u.policy = s.policy → goOn u = .next t → goOn (setMaxWidth mw u) = .next (setMaxWidth mw t)) :
    emitPrefix (setMaxWidth mw s) goOn = .next (setMaxWidth mw t) := by
  obtain ⟨habs, rfl⟩ | ⟨p, u, hp, hu, ht⟩ := emitPrefix_cases h
  · exact emitPrefix_of_absent (s := setMaxWidth mw s) habs goOn
  · exact (emitPrefix_of_append (s := setMaxWidth mw s) hp (bpAppend_setMaxWidth mw hu) goOn).trans
      (hgo u (bpAppend_policy hu) ht)

/-- The test for a reset is the one reader of `max_width` in the miss arm. -/
theorem learnOrReset_setMaxWidth {c : Byte} (hpol : s.policy = .growthOnly) (h : learnOrReset c s = .next t) :
    learnOrReset c (setMaxWidth mw s) = .next (setMaxWidth mw t) := by
  have hdue : resetDue (setMaxWidth mw s) = false := resetDue_of_growthOnly hpol
  obtain ⟨hreset, -⟩ | ⟨-, hfull, rfl⟩ | ⟨-, hfull, u, hu, rfl⟩ := learnOrReset_cases h
  · simp [resetDue_of_growthOnly hpol] at hreset
  · exact learnOrReset_of_capacityFull hdue hfull c
  · exact learnOrReset_of_insert hdue hfull (dictInsert_setMaxWidth mw hu)

theorem byteMatching_setMaxWidth {c : Byte} (hpol : s.policy = .growthOnly) (h : byteMatching c s = .next t) :
    byteMatching c (setMaxWidth mw s) = .next (setMaxWidth mw t) := by
  rw [byteMatching] at h ⊢
  rw [hit_setMaxWidth]
  split at h
  · next hhit =>
    obtain rfl := Host.Outcome.next.inj h
    rw [if_pos hhit]
    rfl
  · next hhit =>
    rw [if_neg hhit]
    exact emitPrefix_setMaxWidth mw h fun u hu => learnOrReset_setMaxWidth mw (hu.trans hpol)

theorem eosMatching_setMaxWidth (h : eosMatching s = .next t) :
    eosMatching (setMaxWidth mw s) = .next (setMaxWidth mw t) := by
  refine emitPrefix_setMaxWidth mw h fun u _ ht => ?_
  obtain ⟨v, hv, hfinish⟩ := (andThen_eq_next_iff _ _ _).1 ht
  obtain rfl := Host.Outcome.next.inj hfinish
  rw [bpFlush_setMaxWidth mw hv]
  rfl

theorem execByte_setMaxWidth {c : Byte} (hpol : s.policy = .growthOnly) (h : execByte c s = .next t) :
    execByte c (setMaxWidth mw s) = .next (setMaxWidth mw t) := by
  rw [execByte, setMaxWidth_state]
  rw [execByte] at h
  cases hst : s.state <;> simp only [hst] at h ⊢
  case matching => exact byteMatching_setMaxWidth mw hpol h
  all_goals obtain rfl := Host.Outcome.next.inj h
  case awaitFirstByte | failed => rfl
  case idle | done => rw [protocolError_setMaxWidth]

theorem execEos_setMaxWidth (h : execEos s = .next t) : execEos (setMaxWidth mw s) = .next (setMaxWidth mw t) := by
  rw [execEos, setMaxWidth_state]
  rw [execEos] at h
  cases hst : s.state <;> simp only [hst] at h ⊢
  case matching => exact eosMatching_setMaxWidth mw h
  all_goals obtain rfl := Host.Outcome.next.inj h
  case awaitFirstByte | failed => rfl
  case idle | done => rw [protocolError_setMaxWidth]

theorem execIoerr_setMaxWidth (h : execIoerr s = .next t) :
    execIoerr (setMaxWidth mw s) = .next (setMaxWidth mw t) := by
  rw [execIoerr, setMaxWidth_state]
  rw [execIoerr] at h
  cases hst : s.state <;> simp only [hst] at h ⊢
  all_goals obtain rfl := Host.Outcome.next.inj h
  case awaitFirstByte | matching | failed => rfl
  case idle | done => rw [protocolError_setMaxWidth]

/-- `CW.RESET_DUE` answers false before and after the change. -/
theorem execCwResetDue_setMaxWidth (hpol : s.policy = .growthOnly) (h : execCwResetDue s = .next t) :
    execCwResetDue (setMaxWidth mw s) = .next (setMaxWidth mw t) := by
  obtain rfl := Host.Outcome.next.inj h
  have hdue : resetDue (setMaxWidth mw s) = false := resetDue_of_growthOnly hpol
  rw [execCwResetDue, hdue, resetDue_of_growthOnly hpol]
  rfl

end

/-- Settles O36: instruction by instruction, the change of `max_width` commutes; what reads it is the test for a reset, which
`GROWTH_ONLY` answers false. -/
theorem growthOnlyIgnoresMaxWidth : Obligations.GrowthOnlyIgnoresMaxWidth := by
  intro i s t mw hpol hstart h
  show exec i (setMaxWidth mw s) = .next (setMaxWidth mw t)
  cases i with
  | byte c => exact execByte_setMaxWidth mw hpol h
  | eos => exact execEos_setMaxWidth mw h
  | start m pol => exact absurd rfl (hstart m pol)
  | ioerr => exact execIoerr_setMaxWidth mw h
  | dictLookup key =>
    obtain rfl := Host.Outcome.next.inj h
    rfl
  | dictInsert key code => exact dictInsert_setMaxWidth mw h
  | dictReset =>
    obtain rfl := Host.Outcome.next.inj h
    rfl
  | cwWidth =>
    obtain rfl := Host.Outcome.next.inj h
    rfl
  | cwResetDue => exact execCwResetDue_setMaxWidth mw hpol h
  | bpAppend code width => exact bpAppend_setMaxWidth mw h
  | bpFlush => exact bpFlush_setMaxWidth mw h

end Sys2Proof.Machine
end

section
/-! The bit-packer family (42_bit_packer.md R125 to R131): what `BP.APPEND` and `BP.FLUSH` do and where they stop, the sum of
the widths, and the numeric form of the accumulator. -/

namespace Sys2Proof

/-! What shift, or and mask do to the number a bit sequence spells (42_bit_packer.md R130). -/

/-- Shift and or put the bits of a code behind those held. -/
theorem natOfBits_shiftLeft_or {w code : Nat} (h : code < 2 ^ w) (bits : Bits) :
    natOfBits bits <<< w ||| code = natOfBits (bits ++ bitstr w code) := by
  rw [← Nat.shiftLeft_add_eq_or_of_lt h, Nat.shiftLeft_eq, natOfBits_append, length_bitstr, natOfBits_bitstr_of_lt h]

/-- A right shift drops the younger bits. -/
theorem natOfBits_append_shiftRight (a b : Bits) : natOfBits (a ++ b) >>> b.length = natOfBits a := by
  rw [natOfBits_append, Nat.shiftRight_eq_div_pow, Nat.mul_comm, Nat.mul_add_div (by positivity),
    Nat.div_eq_of_lt (natOfBits_lt b), Nat.add_zero]

/-- A mask keeps the younger bits. -/
theorem natOfBits_append_mask (a b : Bits) : natOfBits (a ++ b) &&& (2 ^ b.length - 1) = natOfBits b := by
  rw [Nat.and_two_pow_sub_one_eq_mod, natOfBits_append, Nat.mul_add_mod_self_right, Nat.mod_eq_of_lt (natOfBits_lt b)]

@[simp] theorem natOfBits_replicate_false (n : Nat) : natOfBits (List.replicate n false) = 0 := by
  induction n with
  | zero => rfl
  | succ n ih => rw [List.replicate_succ, natOfBits_cons, ih, Bool.toNat_false, Nat.zero_mul]

/-- A left shift pads with zero bits. -/
theorem natOfBits_shiftLeft (bits : Bits) (n : Nat) :
    natOfBits bits <<< n = natOfBits (bits ++ List.replicate n false) := by
  rw [natOfBits_append, natOfBits_replicate_false, List.length_replicate, Nat.shiftLeft_eq, Nat.add_zero]

/-- The mask `0xFF` keeps exactly what a byte holds. -/
theorem byte_ofNat_mask (n : Nat) : BitVec.ofNat 8 (n &&& 0xFF) = BitVec.ofNat 8 n := by
  rw [← BitVec.toNat_inj, BitVec.toNat_ofNat, BitVec.toNat_ofNat, Nat.and_two_pow_sub_one_eq_mod n 8, Nat.mod_mod]

namespace Machine

/-! Each operation inside and outside its preconditions (42_bit_packer.md R125 to R127). -/

theorem bpAppend_of_open {s : State} {code w : Nat} (hr : appendInRange code w = true) (hopen : s.flushed = false) :
    bpAppend code w s = .next (drain (pushCode code w s)) :=
  (bpAppend_eq_next_iff code w s _).2 ⟨hr, hopen, rfl⟩

theorem bpAppend_of_outOfRange {code w : Nat} (hr : appendInRange code w = false) (s : State) :
    bpAppend code w s = .refused .appendOutOfRange := by
  rw [bpAppend, if_pos hr]

theorem bpAppend_of_flushed {s : State} {code w : Nat} (hr : appendInRange code w = true) (hf : s.flushed = true) :
    bpAppend code w s = .refused .packerFlushed := by
  rw [bpAppend, if_neg (by simp [hr]), if_pos hf]

theorem bpFlush_of_flushed {s : State} (hf : s.flushed = true) : bpFlush s = .refused .packerFlushed := by
  rw [bpFlush, if_pos hf]

theorem bpFlush_of_overfull {s : State} (hopen : s.flushed = false) (h8 : 8 ≤ s.acc.length) :
    bpFlush s = .refused .accOverfull := by
  rw [bpFlush, if_neg (by simp [hopen]), if_pos h8]

theorem accNonempty_iff (s : State) : accNonempty s = true ↔ s.acc ≠ [] := by
  rw [accNonempty, decide_eq_true_iff, Nat.one_le_iff_ne_zero, ne_eq, List.length_eq_zero_iff]

/-- Settles O37: `BP.APPEND` completes, and the law of what a `BP.APPEND` that answers can do is the claim. -/
theorem appendPacksTheCode : Obligations.AppendPacksTheCode := by
  intro s code w h8 h32 hcode hopen
  obtain ⟨t, ht⟩ := bpAppend_completes ((appendInRange_iff code w).2 ⟨h8, h32, hcode⟩) hopen
  obtain ⟨-, -, ⟨hbits, -, -⟩, hacc, hout, hpre, hframe⟩ := bpAppend_spec ht
  exact ⟨t, ht, hbits, hacc, hpre, hout, hframe⟩

/-- Settles O38: the byte that comes is the flush byte, whose bits are those held, padded with zeros. -/
theorem flushPadsTheLastByte : Obligations.FlushPadsTheLastByte := by
  intro s hopen h7
  refine ⟨_, bpFlush_of_open hopen h7, fun hnil => ?_, fun hheld => ⟨flushByte s.acc, ?_, bitsOfByte_flushByte h7⟩, rfl⟩
  · exact if_neg fun hne => (accNonempty_iff s).1 hne hnil
  · exact if_pos ((accNonempty_iff s).2 hheld)

/-- Settles O39: one case per test of the two operations, in their order. -/
theorem packerOutsideItsPreconditionsStops : Obligations.PackerOutsideItsPreconditionsStops := by
  intro s code w
  refine ⟨fun hout => bpAppend_of_outOfRange ?_ s, fun h8 h32 hcode hf => ?_, bpFlush_of_flushed, bpFlush_of_overfull⟩
  · rw [← Bool.not_eq_true, appendInRange_iff]
    omega
  · exact bpAppend_of_flushed ((appendInRange_iff code w).2 ⟨h8, h32, hcode⟩) hf

/-! The sum of the widths (42_bit_packer.md R131, 30_encoding.md R79). -/

theorem length_codeBits (codes : List Emission) : (codeBits codes).length = (codes.map fun e => e.width).sum := by
  simp [codeBits, List.length_flatMap]

/-- Settles O40: the run invariant holds the bits themselves; the sums are their lengths. -/
theorem appendedBitsAreConserved : Obligations.AppendedBitsAreConserved := by
  intro s ⟨_, hinv⟩
  refine ⟨fun hst => ?_, fun hst => ?_⟩
  · have hr : RunInv s := hinv (hst.elim inRun_of_awaitFirstByte inRun_of_matching)
    have hbits : sinkBits s.out ++ s.acc = codeBits s.codes := hr.bitsOpen (by rcases hst with hst | hst <;> simp [hst])
    refine ⟨?_, hbits⟩
    rw [← length_codeBits, ← hbits, List.length_append, length_sinkBits]
  · have hr : RunInv s := hinv (by simp [inRun, hst])
    have hbits : sinkBits s.out = codeBits s.codes ++ padBits (codeBits s.codes).length := hr.bitsDone hst
    have hlen : 8 * s.out.length = (codeBits s.codes).length + (8 - (codeBits s.codes).length % 8) % 8 := by
      rw [← length_sinkBits, hbits, List.length_append, length_padBits]
    refine ⟨?_, _, ?_, hbits⟩
    · rw [← length_codeBits]
      omega
    · omega

/-! The numeric form of the accumulator (42_bit_packer.md R130): each of its operations on the numeric form of a bit sequence
is the numeric form of what the bit-sequence operation gives. -/

theorem numericAppend_numericOf {code w : Nat} (h : code < 2 ^ w) (bits : Bits) :
    numericAppend code w (numericOf bits) = numericOf (bits ++ bitstr w code) := by
  simp [numericAppend, numericOf, natOfBits_shiftLeft_or h]

theorem numericByte_numericOf (bits : Bits) : numericByte (numericOf bits) = byteOfBits (bits.take 8) := by
  have hshift := natOfBits_append_shiftRight (bits.take 8) (bits.drop 8)
  rw [List.take_append_drop, List.length_drop] at hshift
  rw [numericByte, byte_ofNat_mask, numericOf, hshift, byteOfBits]

theorem numericDrop_numericOf (bits : Bits) : numericDrop (numericOf bits) = numericOf (bits.drop 8) := by
  have hmask := natOfBits_append_mask (bits.take 8) (bits.drop 8)
  rw [List.take_append_drop, List.length_drop] at hmask
  simp only [numericDrop, numericOf, hmask, List.length_drop]

theorem numericFlushByte_numericOf (bits : Bits) : numericFlushByte (numericOf bits) = flushByte bits := by
  rw [numericFlushByte, byte_ofNat_mask, numericOf, natOfBits_shiftLeft, flushByte, byteOfBits]

/-- The loop of `DRAIN` over the bits and over the number runs the same turns, byte by byte. -/
theorem drainLoop_numeric (turns : Nat) (s : State) :
    (drainLoop turns s).out = s.out ++ (numericDrain turns (numericOf s.acc)).1 ∧
      numericOf (drainLoop turns s).acc = (numericDrain turns (numericOf s.acc)).2 := by
  induction turns generalizing s with
  | zero => exact ⟨(List.append_nil _).symm, rfl⟩
  | succ turns ih =>
    rw [drainLoop, numericDrain]
    by_cases h8 : 8 ≤ s.acc.length
    · obtain ⟨hout, hacc⟩ := ih (extractByte s)
      rw [if_pos h8, if_pos (show 8 ≤ (numericOf s.acc).accLen from h8), numericByte_numericOf, numericDrop_numericOf,
        hout, hacc]
      simp
    · rw [if_neg h8, if_neg (show ¬ 8 ≤ (numericOf s.acc).accLen from h8)]
      exact ⟨(List.append_nil _).symm, rfl⟩

/-- Settles O41: the numeric append is the numeric form of the bits pushed, on which both drains agree; the flush bytes are
one. -/
theorem numericAccumulatorEqualsBitSequence : Obligations.NumericAccumulatorEqualsBitSequence := by
  refine ⟨fun s code w h8 h32 hcode hopen h7 => ?_, fun s hopen h1 h7 => ?_⟩
  · have hlen : (s.acc ++ bitstr w code).length = s.acc.length + w := by simp
    obtain ⟨hout, hacc⟩ := drainLoop_numeric ((s.acc.length + w) / 8) (pushCode code w s)
    refine ⟨_, bpAppend_of_open ((appendInRange_iff code w).2 ⟨h8, h32, hcode⟩) hopen, ?_⟩
    rw [numericAppend_numericOf hcode, drain, pushCode_acc, hlen]
    refine ⟨hout, hacc, ?_, natOfBits_lt _⟩
    show (s.acc ++ bitstr w code).length ≤ 39
    omega
  · refine ⟨_, bpFlush_of_open hopen h7, ?_⟩
    rw [numericFlushByte_numericOf]
    exact if_pos (show accNonempty s = true from decide_eq_true h1)

end Machine
end Sys2Proof
end

section
/-! The driver family (43_driver.md R141 to R156): what each command does in each state, that no move of the environment
stops the machine, and that a whole run reaches `DONE`. -/

namespace Sys2Proof

/-- Only a command word spells `START`, and only the one that encodes it. -/
theorem encode_of_decode_start {r : Request} {mw : BitVec 6} {pol : Policy} (h : decode r = .ok (.start mw pol)) :
    encode (.start mw pol) = r := by
  cases r with
  | word cmd => exact encode_of_decodeCommand h
  | call uop operands =>
    obtain ⟨named, hcall⟩ := encode_of_decodeCall h
    simp [encode] at hcall

namespace Machine

/-! Each command in each state, but `BYTE` and `EOS` in `MATCHING` (43_driver.md R141). -/

section
variable {s : State} {mw : BitVec 6}

theorem exec_byte_misplaced (hst : s.state = .idle ∨ s.state = .done) (c : Byte) :
    exec (.byte c) s = .next (raise .protocol s) := by
  rcases hst with hst | hst <;> simp [exec, execByte, protocolError, hst]

theorem exec_eos_misplaced (hst : s.state = .idle ∨ s.state = .done) : exec .eos s = .next (raise .protocol s) := by
  rcases hst with hst | hst <;> simp [exec, execEos, protocolError, hst]

theorem exec_ioerr_misplaced (hst : s.state = .idle ∨ s.state = .done) : exec .ioerr s = .next (raise .protocol s) := by
  rcases hst with hst | hst <;> simp [exec, execIoerr, protocolError, hst]

theorem exec_start_misplaced (hst : s.state = .awaitFirstByte ∨ s.state = .matching) (mw : BitVec 6) (pol : Policy) :
    exec (.start mw pol) s = .next (raise .protocol s) := by
  rcases hst with hst | hst <;> simp [exec, execStart, protocolError, hst]

theorem exec_byte_failed (hst : s.state = .failed) (c : Byte) : exec (.byte c) s = .next s := by
  simp [exec, execByte, hst]

theorem exec_eos_failed (hst : s.state = .failed) : exec .eos s = .next s := by simp [exec, execEos, hst]

theorem exec_ioerr_failed (hst : s.state = .failed) : exec .ioerr s = .next s := by simp [exec, execIoerr, hst]

theorem exec_byte_awaitFirstByte (hst : s.state = .awaitFirstByte) (c : Byte) :
    exec (.byte c) s = .next (byteFirst c s) := by
  simp [exec, execByte, hst]

theorem exec_eos_awaitFirstByte (hst : s.state = .awaitFirstByte) : exec .eos s = .next (raise .input s) := by
  simp [exec, execEos, hst]

theorem exec_ioerr_inRun (hst : s.state = .awaitFirstByte ∨ s.state = .matching) :
    exec .ioerr s = .next (raise .io s) := by
  rcases hst with hst | hst <;> simp [exec, execIoerr, hst]

theorem exec_start_valid (hst : s.state = .idle ∨ s.state = .done ∨ s.state = .failed) (hmw : mwValid mw = true)
    (pol : Policy) : exec (.start mw pol) s = .next (enterRun singletons 255#32 (openRun mw pol s)) := by
  rcases hst with hst | hst | hst <;> simp [exec, execStart, startAccepted, hst, hmw]

theorem exec_start_invalid (hst : s.state = .idle ∨ s.state = .done ∨ s.state = .failed) (hmw : mwValid mw = false)
    (pol : Policy) : exec (.start mw pol) s = .next (raiseConfig (openRun mw pol s)) := by
  rcases hst with hst | hst | hst <;> simp [exec, execStart, startAccepted, hst, hmw]

end

/-- Settles O10: the rejected `START` is `raise CONFIG` over the opened run. -/
theorem rejectedStartRaisesConfig : Obligations.RejectedStartRaisesConfig := by
  intro s mw pol hst hmw
  have hinvalid : mwValid mw = false := by
    rw [← Bool.not_eq_true, mwValid_iff]
    omega
  exact ⟨_, exec_start_invalid hst hinvalid pol, rfl⟩

/-- Settles O12: in each of these states the command is an error entry. -/
theorem misplacedCommandRaisesProtocol : Obligations.MisplacedCommandRaisesProtocol := by
  intro s i h
  have hraise : exec i s = .next (raise .protocol s) := by
    obtain ⟨hst, ⟨c, rfl⟩ | rfl | rfl⟩ | ⟨hst, mw, pol, rfl⟩ := h
    · exact exec_byte_misplaced hst c
    · exact exec_eos_misplaced hst
    · exact exec_ioerr_misplaced hst
    · exact exec_start_misplaced hst mw pol
  exact ⟨_, hraise, rfl⟩

/-- Settles O14: the first byte becomes the matched key and is counted. -/
theorem firstByteBecomesThePrefix : Obligations.FirstByteBecomesThePrefix :=
  fun _ c hst => exec_byte_awaitFirstByte hst c

/-- Settles O23: an error entry keeps `out`, into which nothing goes before the first code is emitted. -/
theorem eosOnEmptySourceRaisesInput : Obligations.EosOnEmptySourceRaisesInput := by
  intro s hst
  refine ⟨_, exec_eos_awaitFirstByte hst, fun hinv => ?_, rfl⟩
  have hr : RunInv s := hinv.2 (inRun_of_awaitFirstByte hst)
  have hbits : sinkBits s.out ++ s.acc = [] := by
    rw [hr.bitsOpen (by simp [hst]), hr.fresh hst, codeBits_nil]
  have hlen : 8 * s.out.length = 0 := by
    rw [← length_sinkBits, (List.append_eq_nil_iff.1 hbits).1, List.length_nil]
  exact List.length_eq_zero_iff.1 (show s.out.length = 0 by omega)

/-- Settles O24: `IOERR` in a run is an error entry. -/
theorem ioerrRaisesIoAndKeepsTheOutput : Obligations.IoerrRaisesIoAndKeepsTheOutput :=
  fun _ hst => ⟨_, exec_ioerr_inRun hst, rfl⟩

/-! Illegal words, and the state `FAILED` (43_driver.md R149, R151). -/

/-- A command word that spells nothing is of one of the three reserved ranges (30_encoding.md R85), never a nameless `uop`, so
its reject is the protocol error. -/
theorem rejectRequest_of_word {cmd : BitVec 10} {why : DecodeReject} (h : decode (.word cmd) = .error why) (s : State) :
    rejectRequest why s = .next (protocolError s) := by
  rw [decode, decodeCommand] at h
  split_ifs at h
  all_goals
    obtain rfl := Except.error.inj h
    rfl

/-- An illegal word is taken off the queue and has the effect of a misplaced command. -/
theorem step_of_illegal_word {s : State} {cmd : BitVec 10} {later : List Input} {why : DecodeReject}
    (hin : s.inputs = .request (.word cmd) :: later) (hdec : decode (.word cmd) = .error why) :
    step s = .next (protocolError (setInputs later s)) := by
  rw [step_of_inputs_cons hin, takeInput_request_of_reject hdec, rejectRequest_of_word hdec]

theorem step_of_illegal_word_failed {s : State} {cmd : BitVec 10} {later : List Input} {why : DecodeReject}
    (hst : s.state = .failed) (hin : s.inputs = .request (.word cmd) :: later)
    (hdec : decode (.word cmd) = .error why) : step s = .next (setInputs later s) := by
  rw [step_of_illegal_word hin hdec, protocolError_failed (setInputs later s) hst]

/-- Settles O7: outside `FAILED` the protocol error is an error entry, in `FAILED` it is nothing. -/
theorem illegalWordRaisesProtocol : Obligations.IllegalWordRaisesProtocol := by
  intro s cmd later why hin hdec
  refine ⟨fun hst => ?_, fun hst => step_of_illegal_word_failed hst hin hdec⟩
  rw [step_of_illegal_word hin hdec, protocolError_live (setInputs later s) hst]
  exact ⟨_, rfl, rfl⟩

/-- In `FAILED` no instruction but `START` leaves the state: a command is ignored, and a component call does not own
`state`. -/
theorem exec_failed_state {i : Instr} {s t : State} (hst : s.state = .failed) (h : exec i s = .next t) :
    t.state = .failed ∨ ∃ mw pol, i = .start mw pol := by
  obtain ⟨-, -, -, howner, -⟩ := onlyTheOwnerWrites i s t h
  obtain ⟨hkept, -, -⟩ | ⟨c, rfl⟩ | rfl | rfl | hstart := howner
  · exact .inl (hkept.trans hst)
  · obtain rfl := Host.Outcome.next.inj ((exec_byte_failed hst c).symm.trans h)
    exact .inl hst
  · obtain rfl := Host.Outcome.next.inj ((exec_eos_failed hst).symm.trans h)
    exact .inl hst
  · obtain rfl := Host.Outcome.next.inj ((exec_ioerr_failed hst).symm.trans h)
    exact .inl hst
  · exact .inr hstart

/-- A request that leads out of `FAILED` is the encoding of a `START`. -/
theorem takeRequest_leaves_failed {r : Request} {s t : State} (hst : s.state = .failed)
    (h : takeRequest r s = .next t) (hlive : t.state ≠ .failed) : ∃ mw pol, r = encode (.start mw pol) := by
  unfold takeRequest at h
  split at h
  · next i hdec =>
    obtain hfailed | ⟨mw, pol, rfl⟩ := exec_failed_state hst h
    · exact absurd hfailed hlive
    · exact ⟨mw, pol, (encode_of_decode_start hdec).symm⟩
  · rw [rejectRequest_cases h, protocolError_failed s hst] at hlive
    exact absurd hst hlive

/-- Settles O13: ignored commands, ignored words, and of all moves the three that lead out. -/
theorem failedIgnoresAllButStart : Obligations.FailedIgnoresAllButStart := by
  refine ⟨fun s i hst hi => ?_, fun s cmd later why => step_of_illegal_word_failed, fun s t hst h hlive => ?_⟩
  · obtain ⟨c, rfl⟩ | rfl | rfl := hi
    · exact exec_byte_failed hst c
    · exact exec_eos_failed hst
    · exact exec_ioerr_failed hst
  · obtain ⟨-, rfl⟩ | ⟨x, later, hin, hx⟩ := step_cases h
    · exact absurd hst hlive
    · refine ⟨x, later, hin, ?_⟩
      cases x with
      | request r =>
        obtain ⟨mw, pol, rfl⟩ := takeRequest_leaves_failed (s := setInputs later s) hst hx hlive
        exact .inr (.inl ⟨mw, pol, rfl⟩)
      | hardReset => exact .inl rfl
      | startSeeded mw pol d last => exact .inr (.inr ⟨mw, pol, d, last, rfl⟩)

/-! `BYTE` in `MATCHING` (43_driver.md R144, R145). -/

theorem exec_byte_hit {s : State} {c : Byte} (hst : s.state = .matching)
    (hhit : memReadDict s.dict (s.pfx ++ [c]) ≠ none) :
    exec (.byte c) s = .next (setPrefix (candidate c s) (countByte s)) := by
  simp [exec, execByte, hst, byteMatching, hit, candidate, Option.isSome_iff_ne_none, hhit]

/-- Settles O15: a hit moves the matched key on and counts the byte. -/
theorem byteHitExtendsThePrefix : Obligations.ByteHitExtendsThePrefix :=
  fun _ _ _ hst hread => exec_byte_hit hst (by simp [hread])

/-- With no reset due and the counter below its top the next code has 32 bits (41_code_width.md R116, R122). -/
theorem nextCode_lt_of_room {s : State} (hr : RunInv s) (hdue : resetDue s = false) (hfull : capacityFull s = false) :
    nextCode s < 2 ^ 32 := by
  cases hpol : s.policy with
  | boundedReset =>
    have hle := nextCode_le_of_not_resetDue hdue hpol
    have hpow := two_pow_bounds hr.cfgValid
    omega
  | growthOnly =>
    have hne : s.lastAssignedCode.toNat ≠ 2 ^ 32 - 1 := fun htop =>
      absurd ((capacityFull_iff s).2 ⟨hpol, htop⟩) (by simp [hfull])
    have hlt := s.lastAssignedCode.isLt
    unfold nextCode
    omega

/-- In the run invariant the driver's insertion meets every precondition: the candidate is absent and the next code is above
all codes in use (40_dictionary.md R106). -/
theorem dictInsert_candidate {c : Byte} {s : State} (hr : RunInv s) (hmiss : memReadDict s.dict (candidate c s) = none)
    (hlt : nextCode s < 2 ^ 32) : dictInsert (candidate c s) (nextCode s) s =
      .next (learn (candidate c s) (BitVec.ofNat 32 (nextCode s)) s) := by
  have hfree : ∀ e ∈ s.dict, e.code.toNat ≠ nextCode s := by
    intro e he
    have hle := hr.dict.code_le he
    unfold nextCode
    omega
  exact (dictInsert_eq_next_iff _ _ _ _).2
    ⟨by simp [candidate], hmiss, rfl, hlt, codeInUse_ofNat_eq_false hlt hfree, rfl⟩

theorem learnOrReset_completes {c : Byte} {s : State} (hr : RunInv s)
    (hmiss : memReadDict s.dict (candidate c s) = none) : ∃ t, learnOrReset c s = .next t := by
  cases hdue : resetDue s with
  | true => exact ⟨_, learnOrReset_of_resetDue hdue c⟩
  | false =>
    cases hfull : capacityFull s with
    | true => exact ⟨_, learnOrReset_of_capacityFull hdue hfull c⟩
    | false =>
      exact ⟨_, learnOrReset_of_insert hdue hfull (dictInsert_candidate hr hmiss (nextCode_lt_of_room hr hdue hfull))⟩

/-- The state between the emission and the miss arm's second half is still in the run invariant, with the candidate
absent. -/
theorem emitted_runInv {c : Byte} {code w : Nat} {s u : State} (hinv : Inv s) (hst : s.state = .matching)
    (hmiss : memReadDict s.dict (s.pfx ++ [c]) = none) (hu : bpAppend code w s = .next u) :
    RunInv (countByte u) ∧ memReadDict (countByte u).dict (candidate c (countByte u)) = none := by
  refine ⟨countByte_runInv ((hinv.2 (inRun_of_matching hst)).bpAppend hst hu), ?_⟩
  rw [candidate, countByte_dict, countByte_pfx, bpAppend_dict hu, bpAppend_pfx hu, hmiss]

/-- In the invariant a miss completes: an emission, then the miss arm's second half. -/
theorem exec_byte_miss_completes {s : State} {c : Byte} (hinv : Inv s) (hst : s.state = .matching)
    (hmiss : memReadDict s.dict (s.pfx ++ [c]) = none) :
    ∃ p u t, memReadDict s.dict s.pfx = some p ∧ bpAppend p.toNat (width s) s = .next u ∧
      exec (.byte c) s = .next t ∧ learnOrReset c (countByte u) = .next t := by
  obtain ⟨p, hp⟩ := Option.ne_none_iff_exists'.1 ((hinv.2 (inRun_of_matching hst)).matched hst)
  obtain ⟨u, hu, hexec⟩ := exec_byte_miss hinv hst hmiss hp
  obtain ⟨hr, habs⟩ := emitted_runInv hinv hst hmiss hu
  obtain ⟨t, ht⟩ := learnOrReset_completes hr habs
  exact ⟨p, u, t, hp, hu, hexec.trans ht, ht⟩

/-- Settles O16: the emission leaves `cfg`, dictionary and counter, so after it neither a reset nor `CAPACITY` is due, and
the candidate is inserted under the next code. -/
theorem byteMissEmitsThenInserts : Obligations.ByteMissEmitsThenInserts := by
  intro s c p hinv hst hmiss hp hbounded hgrowth
  obtain ⟨u, hu, hexec⟩ := exec_byte_miss hinv hst hmiss hp
  obtain ⟨-, -, happ, -, -, -, hframe⟩ := bpAppend_spec hu
  obtain ⟨hr, habs⟩ := emitted_runInv hinv hst hmiss hu
  have hdue : resetDue (countByte u) = false := by
    rw [← Bool.not_eq_true, resetDue_iff, hframe]
    exact fun ⟨hpol, hle⟩ => absurd (hbounded hpol) (not_lt.2 hle)
  have hfull : capacityFull (countByte u) = false := by
    rw [← Bool.not_eq_true, capacityFull_iff, hframe]
    rintro ⟨hpol, htop⟩
    have htop' : s.lastAssignedCode.toNat = 2 ^ 32 - 1 := htop
    have hroom := hgrowth hpol
    omega
  have hlt := nextCode_lt_of_room hr hdue hfull
  rw [hexec, learnOrReset_of_insert hdue hfull (dictInsert_candidate hr habs hlt)]
  refine ⟨_, rfl, happ, ?_, fun key => ?_, ?_⟩
  · refine (toNat_ofNat_code hlt).trans ?_
    rw [hframe]
    rfl
  · refine (memReadDict_memWriteDict _ habs key).trans ?_
    rw [hframe]
    rfl
  · rw [hframe]
    rfl

/-! The greedy match (43_driver.md R154). -/

/-- D5 of 10_state.md R34 for every non-empty beginning of a key. -/
theorem DictInv.read_of_prefix {d : Dict} {last : Code} (h : DictInv d last) {k key : Key} (hne : k ≠ [])
    (hpre : k <+: key) (hread : memReadDict d key ≠ none) : memReadDict d k ≠ none := by
  obtain ⟨rest, rfl⟩ := hpre
  induction rest using List.reverseRecOn with
  | nil => simpa using hread
  | append_singleton rest b ih =>
    rw [← List.append_assoc] at hread
    exact ih (h.prefixClosed _ b (by simp [hne]) hread)

/-- A key that begins the input and is longer than the matched key would make the candidate a key. -/
theorem DictInv.length_le_of_miss {d : Dict} {last : Code} (h : DictInv d last) {pfx key : Key} {c : Byte}
    {more : List Byte} (hmiss : memReadDict d (pfx ++ [c]) = none) (hpre : key <+: pfx ++ c :: more)
    (hread : memReadDict d key ≠ none) : key.length ≤ pfx.length := by
  by_contra hlong
  have hcand : pfx ++ [c] <+: pfx ++ c :: more := by simp
  have hle : (pfx ++ [c]).length ≤ key.length := by
    rw [List.length_append, List.length_singleton]
    omega
  exact h.read_of_prefix (by simp) (List.prefix_of_prefix_length_le hcand hpre hle) hread hmiss

/-- Settles O20: the miss completes with one emission, and D5 rules out a longer key. -/
theorem emittedPrefixIsTheLongestMatch : Obligations.EmittedPrefixIsTheLongestMatch := by
  intro s c more hinv hst hmiss
  obtain ⟨p, u, t, hp, hu, hexec, hgo⟩ := exec_byte_miss_completes hinv hst hmiss
  obtain ⟨-, -, ⟨hbits, hheld, hemitted⟩, -⟩ := bpAppend_spec hu
  obtain ⟨hout, hcodes⟩ := learnOrReset_out_codes hgo
  exact ⟨p, t, u, hp, hexec, ⟨hbits, hheld, hemitted⟩, hout, hcodes.trans hemitted, List.prefix_append _ _,
    fun key hpre hread => (hinv.2 (inRun_of_matching hst)).dict.length_le_of_miss hmiss hpre hread⟩

/-! `EOS` in `MATCHING` (43_driver.md R146). -/

theorem exec_eos_matching {s : State} (hst : s.state = .matching) : exec .eos s = eosMatching s := by
  simp [exec, execEos, hst]

/-- In the invariant `EOS` completes: an emission, the flush, and the end of the run. -/
theorem exec_eos_completes {s : State} {p : Code} (hinv : Inv s) (hst : s.state = .matching)
    (hp : memReadDict s.dict s.pfx = some p) :
    ∃ u v, bpAppend p.toNat (width s) s = .next u ∧ bpFlush u = .next v ∧ exec .eos s = .next (finishRun v) := by
  have hr : RunInv s := hinv.2 (inRun_of_matching hst)
  obtain ⟨u, hu⟩ := hr.emit hst hp
  obtain ⟨v, hv⟩ := bpFlush_completes ((bpAppend_flushed hu).trans (hr.packerOpen hst)) (hinv.1.bpAppend hu).accShort
  refine ⟨u, v, hu, hv, ?_⟩
  rw [exec_eos_matching hst, eosMatching, emitPrefix_of_append hp hu, hv, andThen_next]

/-- Settles O22: the bits of the emission and of the flush, whose padding counts the bits held before modulo 8. -/
theorem eosEmitsFlushesAndFinishes : Obligations.EosEmitsFlushesAndFinishes := by
  intro s hst
  refine ⟨fun hp => ⟨_, (exec_eos_matching hst).trans (emitPrefix_of_absent hp _), rfl⟩, fun p hinv hp => ?_⟩
  obtain ⟨u, v, hu, hv, hexec⟩ := exec_eos_completes hinv hst hp
  obtain ⟨-, -, ⟨hbits, -, -⟩, hheld, -, -, hframe⟩ := bpAppend_spec hu
  obtain ⟨-, -, hflush, -, -, hframe'⟩ := bpFlush_spec hv
  have hpad : padBits u.acc.length = padBits (s.acc.length + width s) := padBits_congr (by omega)
  refine ⟨_, hexec, ?_, ?_⟩
  · rw [finishRun_out, hflush, hbits, hpad]
  · rw [hframe', hframe]
    rfl

/-! Every command and every move of the environment answers (43_driver.md R141, 70_reset_and_hazards.md R213). -/

theorem exec_byte_answers {s : State} (hinv : Inv s) (c : Byte) : ∃ t, exec (.byte c) s = .next t := by
  cases hst : s.state with
  | idle => exact ⟨_, exec_byte_misplaced (.inl hst) c⟩
  | awaitFirstByte => exact ⟨_, exec_byte_awaitFirstByte hst c⟩
  | matching =>
    by_cases hmiss : memReadDict s.dict (s.pfx ++ [c]) = none
    · obtain ⟨p, u, t, -, -, hexec, -⟩ := exec_byte_miss_completes hinv hst hmiss
      exact ⟨t, hexec⟩
    · exact ⟨_, exec_byte_hit hst hmiss⟩
  | done => exact ⟨_, exec_byte_misplaced (.inr hst) c⟩
  | failed => exact ⟨_, exec_byte_failed hst c⟩

theorem exec_eos_answers {s : State} (hinv : Inv s) : ∃ t, exec .eos s = .next t := by
  cases hst : s.state with
  | idle => exact ⟨_, exec_eos_misplaced (.inl hst)⟩
  | awaitFirstByte => exact ⟨_, exec_eos_awaitFirstByte hst⟩
  | matching =>
    obtain ⟨p, hp⟩ := Option.ne_none_iff_exists'.1 ((hinv.2 (inRun_of_matching hst)).matched hst)
    obtain ⟨u, v, -, -, hexec⟩ := exec_eos_completes hinv hst hp
    exact ⟨_, hexec⟩
  | done => exact ⟨_, exec_eos_misplaced (.inr hst)⟩
  | failed => exact ⟨_, exec_eos_failed hst⟩

theorem exec_start_answers (mw : BitVec 6) (pol : Policy) (s : State) : ∃ t, exec (.start mw pol) s = .next t := by
  rw [exec, execStart]
  split <;> exact ⟨_, rfl⟩

theorem exec_ioerr_answers (s : State) : ∃ t, exec .ioerr s = .next t := by
  rw [exec, execIoerr]
  split <;> exact ⟨_, rfl⟩

theorem takeRequest_word_answers {s : State} (hinv : Inv s) (cmd : BitVec 10) :
    ∃ t, takeRequest (.word cmd) s = .next t := by
  unfold takeRequest
  split
  · next i hdec =>
    obtain ⟨c, rfl⟩ | rfl | ⟨mw, pol, rfl⟩ | rfl := decodeCommand_cases hdec
    · exact exec_byte_answers hinv c
    · exact exec_eos_answers hinv
    · exact exec_start_answers mw pol s
    · exact exec_ioerr_answers s
  · next hdec => exact ⟨_, rejectRequest_of_word hdec s⟩

/-- A seed in the dictionary invariant is one whose codes cannot collide (60_exceptions.md R186; log entry 17). -/
theorem seedUsable_of_dictInv {d : Dict} {last : Code} (h : DictInv d last) : seedUsable d last = true := by
  simp only [seedUsable, h.wf, Bool.true_and, List.all_eq_true, decide_eq_true_eq]
  exact fun e he => h.code_le he

theorem storeHolds_default (d : Dict) : storeHolds d = true := by
  simp [storeHolds, withinLimit, Config.dictCapacity, Config.keyMaxLen]

theorem startSeeded_answers {mw : BitVec 6} {pol : Policy} {d : Dict} {last : Code}
    (hseed : SeedWellFormed mw pol d last) (s : State) : ∃ t, startSeeded mw pol d last s = .next t := by
  obtain ⟨hdict, -⟩ := hseed
  have haccepted : ∃ t, seededAccepted mw pol d last s = .next t := by
    rw [seededAccepted, seedUsable_of_dictInv hdict, storeHolds_default]
    split <;> exact ⟨_, rfl⟩
  unfold startSeeded
  split
  case h_1 | h_4 | h_5 => exact haccepted
  case h_2 | h_3 => exact ⟨_, rfl⟩

theorem takeInput_answers {x : Input} {s : State} (hinv : Inv s) (hx : EnvironmentMove x) :
    ∃ t, takeInput x s = .next t := by
  cases x with
  | request r =>
    cases r with
    | word cmd => exact takeRequest_word_answers hinv cmd
    | call uop operands => exact hx.elim
  | hardReset => exact ⟨_, rfl⟩
  | startSeeded mw pol d last => exact startSeeded_answers hx s

/-- Settles O47: a waiting step answers, and so does each move the environment may make. -/
theorem environmentMovesNeverStop : Obligations.EnvironmentMovesNeverStop := by
  intro s hinv hmove
  cases hin : s.inputs with
  | nil => exact ⟨s, by simp only [step, takeNext, hin]⟩
  | cons x later =>
    rw [step_of_inputs_cons hin]
    exact takeInput_answers (hinv.setInputs later) (hmove x (by simp [hin]))

/-! A whole run (43_driver.md R156). -/

/-- What follows an emission stays in `MATCHING` but for `CAPACITY`, and counts no byte. -/
theorem learnOrReset_keeps_state {c : Byte} {s t : State} (hfull : capacityFull s = false)
    (h : learnOrReset c s = .next t) : t.state = s.state ∧ t.nIn = s.nIn := by
  obtain ⟨-, rfl⟩ | ⟨-, hcap, -⟩ | ⟨-, -, u, hu, rfl⟩ := learnOrReset_cases h
  · exact ⟨rfl, rfl⟩
  · simp [hfull] at hcap
  · obtain ⟨-, -, -, -, -, rfl⟩ := (dictInsert_eq_next_iff _ _ _ _).1 hu
    exact ⟨rfl, rfl⟩

/-- With room in the counter a `BYTE` in `MATCHING` goes on matching, counts the byte and emits at most one code. -/
theorem exec_byte_keeps_matching {s : State} (hinv : Inv s) (hst : s.state = .matching)
    (hroom : capacityFull s = false) (c : Byte) :
    ∃ t, exec (.byte c) s = .next t ∧ t.state = .matching ∧ t.nIn = s.nIn + 1 ∧
      t.codes.length ≤ s.codes.length + 1 := by
  by_cases hmiss : memReadDict s.dict (s.pfx ++ [c]) = none
  · obtain ⟨p, u, t, -, hu, hexec, hgo⟩ := exec_byte_miss_completes hinv hst hmiss
    obtain ⟨-, -, ⟨-, -, hemitted⟩, -, -, -, hframe⟩ := bpAppend_spec hu
    have hroom' : capacityFull (countByte u) = false := by
      rw [hframe]
      exact hroom
    obtain ⟨hstate, hcount⟩ := learnOrReset_keeps_state hroom' hgo
    obtain ⟨-, hcodes⟩ := learnOrReset_out_codes hgo
    refine ⟨t, hexec, ?_, ?_, ?_⟩
    · rw [hstate, countByte_state, bpAppend_state hu, hst]
    · rw [hcount, countByte_nIn, bpAppend_nIn hu]
    · simp [hcodes, hemitted]
  · exact ⟨_, exec_byte_hit hst hmiss, hst, rfl, by simp⟩

/-- A run has been begun by `START`, and nothing has been taken. -/
structure Begun (s : State) : Prop where
  inv      : Inv s
  awaiting : s.state = .awaitFirstByte
  consumed : s.nIn = 0
  emitted  : s.codes = []
  counter  : s.lastAssignedCode = 255#32

/-- `n` bytes of a run begun by `START` have been taken: fewer codes are out than bytes are in, and where nothing resets the
counter it has moved up at most once a byte after the first. -/
structure MidRun (n : Nat) (s : State) : Prop where
  inv      : Inv s
  matching : s.state = .matching
  consumed : s.nIn = n
  emitted  : s.codes.length < n
  counter  : s.policy = .growthOnly → s.lastAssignedCode.toNat < 255 + n

/-! The queue stands outside of both. -/

theorem Begun.setInputs {s : State} (h : Begun s) (later : List Input) : Begun (setInputs later s) :=
  ⟨h.inv.setInputs later, h.awaiting, h.consumed, h.emitted, h.counter⟩

theorem MidRun.setInputs {n : Nat} {s : State} (h : MidRun n s) (later : List Input) : MidRun n (setInputs later s) :=
  ⟨h.inv.setInputs later, h.matching, h.consumed, h.emitted, h.counter⟩

/-- An accepted `START` leaves a run in the invariant with no byte taken, from any state in which a run may begin, in the
invariant or not (43_driver.md R142). -/
theorem exec_start_begun {s : State} {mw : BitVec 6}
    (hst : s.state = .idle ∨ s.state = .done ∨ s.state = .failed) (hmw : mwValid mw = true) (pol : Policy) :
    ∃ t, exec (.start mw pol) s = .next t ∧ Begun t ∧ t.policy = pol := by
  have hrun : RunInv (enterRun singletons 255#32 (openRun mw pol s)) :=
    runInv_enterRun dictInv_singletons hmw (fun _ => singletons_last_le hmw) s
  have hinv : Inv (enterRun singletons 255#32 (openRun mw pol s)) :=
    ⟨sound_enterRun dictWf_singletons _ mw pol s, fun _ => hrun⟩
  exact ⟨_, exec_start_valid hst hmw pol, ⟨hinv, rfl, rfl, rfl, rfl⟩, rfl⟩

theorem Begun.byte {s : State} (h : Begun s) (c : Byte) :
    ∃ t, exec (.byte c) s = .next t ∧ MidRun 1 t ∧ t.policy = s.policy := by
  have hexec : exec (.byte c) s = .next (byteFirst c s) := exec_byte_awaitFirstByte h.awaiting c
  exact ⟨_, hexec, ⟨execByte_inv h.inv hexec, rfl, by simp [h.consumed], by simp [h.emitted], by simp [h.counter]⟩, rfl⟩

/-- A `BYTE` moves the counter up by at most one, a reset bringing it down to 255. -/
theorem exec_counter_le {i : Instr} {s t : State} (h : exec i s = .next t) :
    t.lastAssignedCode.toNat ≤ max 255 (s.lastAssignedCode.toNat + 1) := by
  cases exec_storeChange h with
  | kept dict counter =>
    rw [counter]
    omega
  | reset dict counter =>
    rw [counter]
    exact le_max_left _ _
  | inserted key absent dict counter => omega

theorem MidRun.byte {n : Nat} {s : State} (h : MidRun n s) (hshort : s.policy = .growthOnly → n < 2 ^ 32 - 256)
    (c : Byte) : ∃ t, exec (.byte c) s = .next t ∧ MidRun (n + 1) t ∧ t.policy = s.policy := by
  have hroom : capacityFull s = false := by
    rw [← Bool.not_eq_true, capacityFull_iff]
    rintro ⟨hpol, htop⟩
    have hcounter := h.counter hpol
    have hn := hshort hpol
    omega
  obtain ⟨t, ht, hstate, hcount, hcodes⟩ := exec_byte_keeps_matching h.inv h.matching hroom c
  obtain ⟨-, hpolicy⟩ := execByte_cfg ht
  have hemitted := h.emitted
  have hconsumed := h.consumed
  refine ⟨t, ht, ⟨execByte_inv h.inv ht, hstate, by omega, by omega, fun hpol => ?_⟩, hpolicy⟩
  have hcounter := h.counter (hpolicy.symm.trans hpol)
  have hle := exec_counter_le ht
  omega

/-- What the end of a run leaves (43_driver.md R156, 30_encoding.md R75). -/
structure RunDone (n : Nat) (t : State) : Prop where
  done     : t.state = .done
  noError  : t.err = .none
  consumed : t.nIn = n
  someCode : 1 ≤ t.codes.length
  fewCodes : t.codes.length ≤ n
  someByte : t.out ≠ []
  stream   : sinkBits t.out = codeBits t.codes ++ padBits (codeBits t.codes).length

theorem MidRun.eos {n : Nat} {s : State} (h : MidRun n s) : ∃ t, exec .eos s = .next t ∧ RunDone n t := by
  have hr : RunInv s := h.inv.2 (inRun_of_matching h.matching)
  obtain ⟨p, hp⟩ := Option.ne_none_iff_exists'.1 (hr.matched h.matching)
  obtain ⟨u, v, hu, hv, hexec⟩ := exec_eos_completes h.inv h.matching hp
  obtain ⟨-, -, ⟨-, -, hemitted⟩, -⟩ := bpAppend_spec hu
  have hinv : Inv (finishRun v) := execEos_inv h.inv hexec
  have hrun : RunInv (finishRun v) := hinv.2 rfl
  have hcodes : (finishRun v).codes.length = s.codes.length + 1 := by
    simp [bpFlush_codes hv, hemitted]
  have hless := h.emitted
  obtain ⟨bytes, hout, -, hbytes⟩ := execEos_outputGrowsBy h.inv.1.accShort hexec
  have hne : bytes ≠ [] := fun hnil => by
    rw [hbytes.2 hnil] at hcodes
    omega
  refine ⟨_, hexec, rfl, hinv.1.errNone.2 (by simp), ?_, by omega, by omega, ?_, hrun.bitsDone rfl⟩
  · rw [finishRun_nIn, bpFlush_nIn hv, bpAppend_nIn hu, h.consumed]
  · rw [hout]
    exact List.append_ne_nil_of_right_ne_nil _ hne

/-- A run of the machine whose first move is a command begins with what the command does. -/
theorem run_of_command {i : Instr} {s t : State} {later : List Input} (hin : s.inputs = .request (encode i) :: later)
    (h : exec i (setInputs later s) = .next t) (k : Nat) : core.run (k + 1) s = core.run k t := by
  have hstep : core.step s = .next t := by
    show step s = .next t
    rw [step_of_inputs_cons hin, takeInput_request_of_decode (encodedInstructionsDecodeBack i), h]
  simp only [Host.Core.run, hstep]

/-- The bytes of a source, one step each. -/
theorem MidRun.bytes {n : Nat} {s : State} {later : List Input} (h : MidRun n s) (data : List Byte)
    (hshort : s.policy = .growthOnly → n + data.length ≤ 2 ^ 32 - 256)
    (hin : s.inputs = commandInputs (dataCommands data) ++ later) :
    ∃ t, MidRun (n + data.length) t ∧ t.inputs = later ∧ ∀ k, core.run (data.length + k) s = core.run k t := by
  induction data generalizing n s with
  | nil => exact ⟨s, h, hin, fun k => by rw [List.length_nil, Nat.zero_add]⟩
  | cons c data ih =>
    simp only [List.length_cons] at hshort ⊢
    have hin' : s.inputs = .request (encode (.byte c)) :: (commandInputs (dataCommands data) ++ later) := hin
    obtain ⟨t, ht, hmid, hpol⟩ := (h.setInputs (commandInputs (dataCommands data) ++ later)).byte
      (fun hg => by have := hshort hg; omega) c
    obtain ⟨t', hmid', hlater, hrun⟩ := ih hmid (fun hg => by have := hshort (hpol.symm.trans hg); omega) (exec_inputs ht)
    refine ⟨t', ?_, hlater, fun k => ?_⟩
    · rwa [show n + (data.length + 1) = n + 1 + data.length by omega]
    · rw [show data.length + 1 + k = data.length + k + 1 by omega, run_of_command hin' ht, hrun]

/-- Settles O51: `START` and the first byte establish `MidRun`, each byte more keeps it, and `EOS` ends the run from it. -/
theorem encodingTerminatesWithTheWholeStream : Obligations.EncodingTerminatesWithTheWholeStream := by
  intro s mw pol data later hst h9 h32 hdata hshort hin
  obtain ⟨c, rest, rfl⟩ := List.exists_cons_of_ne_nil hdata
  have hmw : mwValid mw = true := (mwValid_iff mw).2 ⟨h9, h32⟩
  simp only [List.length_cons] at hshort ⊢
  obtain ⟨queue, hqueue⟩ : ∃ queue, queue = commandInputs (dataCommands rest) ++ .request (encode .eos) :: later :=
    ⟨_, rfl⟩
  have hin' : s.inputs = .request (encode (.start mw pol)) :: .request (encode (.byte c)) :: queue := by
    simpa [hqueue, encodeCommands, dataCommands, commandInputs] using hin
  obtain ⟨s₁, hstart, hbegun, hpol₁⟩ :=
    exec_start_begun (s := setInputs (.request (encode (.byte c)) :: queue) s) hst hmw pol
  obtain ⟨s₂, hbyte, hfirst, hpol₂⟩ := (hbegun.setInputs queue).byte c
  have hpol : s₂.policy = pol := hpol₂.trans hpol₁
  obtain ⟨s₃, hmid, hin₃, hbytes⟩ := hfirst.bytes rest
    (fun hg => by have := hshort (hpol.symm.trans hg); omega) ((exec_inputs hbyte).trans hqueue)
  obtain ⟨t, heos, hdone⟩ := (hmid.setInputs later).eos
  refine ⟨t, ?_, hdone.done, hdone.noError, exec_inputs heos, ?_, hdone.someCode, ?_, hdone.someByte, hdone.stream⟩
  · calc core.run (rest.length + 1 + 2) s
      _ = core.run (rest.length + 1 + 1) s₁ := run_of_command hin' hstart _
      _ = core.run (rest.length + 1) s₂ := run_of_command (exec_inputs hstart) hbyte _
      _ = core.run 1 s₃ := hbytes 1
      _ = .next t := run_of_command hin₃ heos 0
  · rw [hdone.consumed, Nat.add_comm]
  · rw [Nat.add_comm]
    exact hdone.fewCodes

end Machine
end Sys2Proof
end

section
/-! The exceptions family (60_exceptions.md R170 to R186): what each instruction can do to `err`, what an error leaves in
`out`, and seeded construction. -/

namespace Sys2Proof.Machine

/-! A prefix absent at emission (60_exceptions.md R174). -/

/-- A miss is an emission with the byte counted; whether `prefix` is a key is left open. -/
theorem exec_byte_of_miss {s : State} {c : Byte} (hst : s.state = .matching)
    (hmiss : memReadDict s.dict (s.pfx ++ [c]) = none) :
    exec (.byte c) s = emitPrefix (countByte s) (learnOrReset c) := by
  simp [exec, execByte, hst, byteMatching, hit, candidate, hmiss]

theorem exec_byte_miss_absent {s : State} {c : Byte} (hst : s.state = .matching)
    (hmiss : memReadDict s.dict (s.pfx ++ [c]) = none) (hp : memReadDict s.dict s.pfx = none) :
    exec (.byte c) s = .next (raise .internal (countByte s)) :=
  (exec_byte_of_miss hst hmiss).trans (emitPrefix_of_absent (s := countByte s) hp _)

/-- Settles O19: both emissions are error entries over a state where at most the byte has been counted. -/
theorem absentPrefixAtEmissionRaisesInternal : Obligations.AbsentPrefixAtEmissionRaisesInternal := by
  refine ⟨fun s c hst hmiss hp => ⟨_, exec_byte_miss_absent hst hmiss hp, rfl⟩, fun s hst hp => ?_, rfl, rfl⟩
  exact ⟨_, (exec_eos_matching hst).trans (emitPrefix_of_absent hp _), rfl⟩

/-! Every way an instruction can treat `err` (60_exceptions.md R170, R177). -/

/-- From `s` to `t`, by the instruction `i`: no error is entered, a run begins, or one of the kinds is raised, each with what
60_exceptions.md R178 says of `out`. -/
inductive ErrorEffect (i : Instr) (s t : State) : Prop where
  | kept (err : t.err = s.err) (live : t.state = .failed → s.state = .failed)
  | begun (err : t.err = .none) (state : t.state = .awaitFirstByte)
  | config (mw : BitVec 6) (pol : Policy) (start : i = .start mw pol) (err : t.err = .config) (out : t.out = [])
  | input (awaiting : s.state = .awaitFirstByte) (err : t.err = .input) (out : t.out = s.out)
  | truncated (err : t.err = .io ∨ t.err = .internal ∨ t.err = .protocol) (out : t.out = s.out)
  | capacity (p : Code) (u : State) (read : memReadDict s.dict s.pfx = some p)
      (emitted : AppendsCode p.toNat (width s) s u) (err : t.err = .capacity) (out : t.out = u.out)

theorem learnOrReset_err {c : Byte} {s t : State} (h : learnOrReset c s = .next t) :
    (t.err = s.err ∧ t.state = s.state) ∨ t = raise .capacity s := by
  obtain ⟨-, rfl⟩ | ⟨-, -, rfl⟩ | ⟨-, -, u, hu, rfl⟩ := learnOrReset_cases h
  · exact .inl ⟨rfl, rfl⟩
  · exact .inr rfl
  · obtain ⟨-, -, -, -, -, rfl⟩ := (dictInsert_eq_next_iff _ _ _ _).1 hu
    exact .inl ⟨rfl, rfl⟩

theorem execByte_errorEffect {c : Byte} {s t : State} (h : execByte c s = .next t) : ErrorEffect (.byte c) s t := by
  obtain ⟨-, rfl⟩ | ⟨-, rfl⟩ | ⟨-, -, rfl⟩ | ⟨hst, -, hmiss⟩ | ⟨-, rfl⟩ := execByte_cases h
  · exact .truncated (.inr (.inr rfl)) rfl
  · exact .kept rfl (by simp)
  · exact .kept rfl id
  · obtain ⟨-, rfl⟩ | ⟨p, u, hp, hu, hgo⟩ := emitPrefix_cases hmiss
    · exact .truncated (.inr (.inl rfl)) rfl
    · obtain ⟨herr, hstate⟩ | rfl := learnOrReset_err hgo
      · have hstate' : t.state = s.state := by rw [hstate, bpAppend_state hu, countByte_state]
        have herr' : t.err = s.err := by rw [herr, bpAppend_err hu, countByte_err]
        exact .kept herr' hstate'.symm.trans
      · obtain ⟨-, -, happ, -⟩ := bpAppend_spec hu
        exact .capacity p u hp happ rfl rfl
  · exact .kept rfl id

theorem execEos_errorEffect {s t : State} (h : execEos s = .next t) : ErrorEffect .eos s t := by
  obtain ⟨-, rfl⟩ | ⟨hst, rfl⟩ | ⟨-, -, rfl⟩ | ⟨-, p, u, v, -, hu, hv, rfl⟩ | ⟨-, rfl⟩ := execEos_cases h
  · exact .truncated (.inr (.inr rfl)) rfl
  · exact .input hst rfl rfl
  · exact .truncated (.inr (.inl rfl)) rfl
  · exact .kept ((bpFlush_err hv).trans (bpAppend_err hu)) (by simp)
  · exact .kept rfl id

theorem execStart_errorEffect {mw : BitVec 6} {pol : Policy} {s t : State} (h : execStart mw pol s = .next t) :
    ErrorEffect (.start mw pol) s t := by
  obtain ⟨-, -, rfl⟩ | ⟨-, -, rfl⟩ | ⟨-, -, rfl⟩ := execStart_cases h
  · exact .truncated (.inr (.inr rfl)) rfl
  · exact .begun rfl rfl
  · exact .config mw pol rfl rfl rfl

theorem execIoerr_errorEffect {s t : State} (h : execIoerr s = .next t) : ErrorEffect .ioerr s t := by
  obtain ⟨-, rfl⟩ | ⟨-, rfl⟩ | ⟨-, rfl⟩ := execIoerr_cases h
  · exact .truncated (.inr (.inr rfl)) rfl
  · exact .truncated (.inl rfl) rfl
  · exact .kept rfl id

/-- A component call owns neither `state` nor `err` (10_state.md R23, R24), so the commands alone can enter an error. -/
theorem exec_errorEffect {i : Instr} {s t : State} (h : exec i s = .next t) : ErrorEffect i s t := by
  obtain ⟨-, -, -, howner, -⟩ := onlyTheOwnerWrites i s t h
  obtain ⟨hstate, herr, -⟩ | ⟨c, rfl⟩ | rfl | rfl | ⟨mw, pol, rfl⟩ := howner
  · exact .kept herr hstate.symm.trans
  · exact execByte_errorEffect h
  · exact execEos_errorEffect h
  · exact execIoerr_errorEffect h
  · exact execStart_errorEffect h

/-- Settles O11: a `START` where a run may begin is decided by the range check, and of all effects on `err` the one that
raises `CONFIG` is that of a `START`. -/
theorem configErrorComesFromStartAlone : Obligations.ConfigErrorComesFromStartAlone := by
  refine ⟨fun s mw pol hst => ?_, fun i s t h hconfig => ?_⟩
  · cases hmw : mwValid mw with
    | true =>
      have hrange := (mwValid_iff mw).1 hmw
      exact ⟨_, exec_start_valid hst hmw pol, rfl, fun houtside => by omega, fun _ => ⟨rfl, rfl⟩⟩
    | false =>
      have hrange : ¬ (9 ≤ mw.toNat ∧ mw.toNat ≤ 32) := by simp [← mwValid_iff, hmw]
      exact ⟨_, exec_start_invalid hst hmw pol, rfl, fun _ => ⟨rfl, rfl⟩, fun hin => absurd hin hrange⟩
  · cases exec_errorEffect h with
    | kept err => exact .inl (err.symm.trans hconfig)
    | config mw pol start => exact .inr ⟨mw, pol, start⟩
    | begun err | input _ err | truncated err | capacity _ _ _ _ err => simp [hconfig] at err

/-- Before the first byte `out` is empty, as `EOS` finds it there (60_exceptions.md R172, R178). -/
theorem out_eq_nil_of_awaitFirstByte {s : State} (hinv : Inv s) (hst : s.state = .awaitFirstByte) : s.out = [] := by
  obtain ⟨t, -, hnil, hframe⟩ := eosOnEmptySourceRaisesInput s hst
  rw [hframe] at hnil
  exact hnil hinv

/-- Settles O25: each kind is raised in one way, which says what stands in `out`. -/
theorem errorsLeaveTheOutputOfEarlierCommands : Obligations.ErrorsLeaveTheOutputOfEarlierCommands := by
  intro s t i hlive h hfailed
  cases exec_errorEffect h with
  | kept _ live => exact absurd (live hfailed) hlive
  | begun _ state => simp [hfailed] at state
  | config _ _ _ err out => simp [err, out]
  | input awaiting err out => simp +contextual [err, out, out_eq_nil_of_awaitFirstByte, awaiting]
  | truncated err out => obtain err | err | err := err <;> simp [err, out]
  | capacity p u read emitted err out => simpa [err] using ⟨p, read, u, emitted, out⟩

/-! Seeded construction (60_exceptions.md R186). -/

theorem seedUsable_iff (d : Dict) (last : Code) :
    seedUsable d last = true ↔ dictWf d = true ∧ ∀ e ∈ d, e.code.toNat ≤ last.toNat := by
  simp [seedUsable]

theorem startSeeded_of_usable {s : State} {mw : BitVec 6} {d : Dict} {last : Code}
    (hst : s.state = .idle ∨ s.state = .done ∨ s.state = .failed) (hmw : mwValid mw = true)
    (hseed : seedUsable d last = true) (pol : Policy) :
    startSeeded mw pol d last s = .next (enterRun d last (openRun mw pol s)) := by
  have haccepted : seededAccepted mw pol d last s = .next (enterRun d last (openRun mw pol s)) := by
    simp [seededAccepted, hmw, hseed, storeHolds_default]
  rcases hst with hst | hst | hst <;> simp [startSeeded, hst, haccepted]

/-- A run begun over a well-formed seed is in the invariant, whatever state it is begun from. -/
theorem enterRun_inv {mw : BitVec 6} {pol : Policy} {d : Dict} {last : Code} (hmw : mwValid mw = true)
    (hseed : SeedWellFormed mw pol d last) (s : State) : Inv (enterRun d last (openRun mw pol s)) := by
  obtain ⟨hdict, hbound⟩ := hseed
  exact ⟨sound_enterRun hdict.wf last mw pol s, fun _ => runInv_enterRun hdict hmw hbound s⟩

/-- Settles O48: the step is the accepted part of `START` over the seed. -/
theorem seededConstructionPlacesTheSeed : Obligations.SeededConstructionPlacesTheSeed := by
  intro s mw pol d last later hin hst h9 h32 hwf hcodes
  have hmw : mwValid mw = true := (mwValid_iff mw).2 ⟨h9, h32⟩
  have hstep : step s = .next (enterRun d last (openRun mw pol (setInputs later s))) :=
    (step_of_inputs_cons hin).trans
      (startSeeded_of_usable (s := setInputs later s) hst hmw ((seedUsable_iff d last).2 ⟨hwf, hcodes⟩) pol)
  exact ⟨_, hstep, fun hseed => enterRun_inv hmw hseed _, rfl⟩

end Sys2Proof.Machine
end

section
/-! The reset and hazards family (70_reset_and_hazards.md R200, R201): the hardware reset, the wait for a command, and the
state an accepted `START` leaves. -/

namespace Sys2Proof.Machine

/-- Settles O9: `START` enters the run over the singletons and their counter, for which the width is 8. -/
theorem acceptedStartConstructsTheRun : Obligations.AcceptedStartConstructsTheRun := by
  intro s mw pol hst h9 h32
  have hvalid : mwValid mw = true := (mwValid_iff mw).2 ⟨h9, h32⟩
  have hwidth : width (enterRun singletons 255#32 (openRun mw pol s)) = 8 :=
    width_of_lastAssignedCode (enterRun_lastAssignedCode singletons 255#32 _)
  exact ⟨_, exec_start_valid hst hvalid pol, holdsOnlySingletons_singletons, hwidth, rfl⟩

/-- Settles O6: the core finds the queue empty and waits (log entry 6). -/
theorem stepWithNothingIssuedWaits : Obligations.StepWithNothingIssuedWaits := by
  intro s hempty
  simp only [step, takeNext, hempty]

/-- A waiting hardware reset acts on the whole state in one step; the later moves stay (log entry 20). -/
theorem step_of_hardReset {s : State} {later : List Input} (hin : s.inputs = .hardReset :: later) :
    step s = .next (hardReset (setInputs later s)) := by
  rw [step_of_inputs_cons hin, takeInput]

/-- Settles O42: of the state right after reset and of the reset input, the three fields 10_state.md R39 fixes. -/
theorem hardwareResetIdlesTheCore : Obligations.HardwareResetIdlesTheCore := by
  refine ⟨⟨rfl, rfl, rfl⟩, fun s later hin => ?_⟩
  exact ⟨_, step_of_hardReset hin, hardReset_state _, hardReset_err _, hardReset_out _⟩

end Sys2Proof.Machine
end

section
/-! `DICT.INSERT` outside its preconditions (93_implementation_defined.md U1, U3, U5, U10; log entries 10 and 11): one
equation for each of its stops. -/

namespace Sys2Proof.Machine

theorem exec_dictInsert (key : Key) (code : Nat) (s : State) :
    exec (.dictInsert key code) s = dictInsert key code s := rfl

theorem dictInsert_emptyKey (code : Nat) (s : State) : dictInsert [] code s = .refused .emptyKey := by
  simp [dictInsert]

theorem dictInsert_present {key : Key} {s : State} (hkey : key ≠ []) (hpresent : memReadDict s.dict key ≠ none)
    (code : Nat) : dictInsert key code s = .refused .insertPrecondition := by
  simp [dictInsert, dictLookup, hkey, hpresent]

section
variable {key : Key} {s : State} (hkey : key ≠ []) (habs : memReadDict s.dict key = none)
include hkey habs

theorem dictInsert_outOfTurn {code : Nat} (hcode : code ≠ nextCode s) :
    dictInsert key code s = .refused .insertPrecondition := by
  simp [dictInsert, dictLookup, hkey, habs, hcode]

theorem dictInsert_codeOverflow (hcode : 2 ^ 32 ≤ nextCode s) :
    dictInsert key (nextCode s) s = .fault .codeOverflow := by
  simp [dictInsert, dictLookup, hkey, habs, hcode, -Nat.reducePow]

theorem dictInsert_codeCollision (hlt : nextCode s < 2 ^ 32)
    (hused : codeInUse s.dict (BitVec.ofNat 32 (nextCode s)) = true) :
    dictInsert key (nextCode s) s = .refused .codeCollision := by
  simp [dictInsert, dictLookup, hkey, habs, Nat.not_le.2 hlt, hused, -Nat.reducePow]

end

/-- A code that an entry has, as a number, is in use. -/
theorem codeInUse_ofNat_toNat {d : Dict} {e : Entry} (he : e ∈ d) : codeInUse d (BitVec.ofNat 32 e.code.toNat) = true := by
  rw [BitVec.ofNat_toNat, BitVec.setWidth_eq]
  exact List.any_eq_true.2 ⟨e, he, beq_self_eq_true e.code⟩

/-- Settles O28: each clause is the branch of `DICT.INSERT` whose test is the first to fail. -/
theorem insertOutsideItsPreconditionsStops : Obligations.InsertOutsideItsPreconditionsStops := by
  intro s key code
  simp only [exec_dictInsert]
  refine ⟨dictInsert_emptyKey code s, ?broken, ?overflow, ?collision⟩
  case broken =>
    intro hkey hbroken
    by_cases habs : memReadDict s.dict key = none
    · exact dictInsert_outOfTurn hkey habs (hbroken.resolve_left (not_not_intro habs))
    · exact dictInsert_present hkey habs code
  case overflow =>
    intro hkey habs hlast
    have hnext : nextCode s = 2 ^ 32 := by simp [nextCode, hlast]
    rw [← hnext]
    exact dictInsert_codeOverflow hkey habs hnext.ge
  case collision =>
    rintro hkey habs hnext hlt ⟨e, he, rfl⟩
    have hused : codeInUse s.dict (BitVec.ofNat 32 e.code.toNat) = true := codeInUse_ofNat_toNat he
    rw [hnext] at hlt hused ⊢
    exact dictInsert_codeCollision hkey habs hlt hused

end Sys2Proof.Machine
end
